-- ==== Sys2Proof/Word.lean ====
section
/-! DEFINITION. The two data widths of the machine (spec/00_scope.md R5, R6): bytes (memory cells, opcode
and operand bytes) and 16-bit words (registers, IP, immediates, addresses). All values are unsigned. -/

namespace Sys2Proof

/-- One memory cell, opcode byte or operand byte: an unsigned 8-bit value (20_memory.md R51). -/
abbrev Byte := BitVec 8

/-- A word: an unsigned 16-bit value (10_state.md R22, R24; 30_encoding.md R86). -/
abbrev Word := BitVec 16

end Sys2Proof
end

