-- ==== Sys2Proof/Syntax.lean ====
section
/-! DEFINITION. The nine instructions of the Ho7 bytecode (spec/30_encoding.md R83), one constructor per row of
spec/opcode_table.json. Operands stand in encoding order (R82). Register codes are kept as the bits the
encoding holds, valid or not: an invalid one is an error of execution, not of decoding (R88, R113). -/

namespace Sys2Proof

inductive Instr where
  /-- `mov_to_reg r, imm` (41_data_movement.md R130), format RI. -/
  | movToReg (r : Byte) (imm : Word)
  /-- `mov_to_ram [addr], r` (41_data_movement.md R131), format AR: the address comes before the register. -/
  | movToRam (addr : Word) (r : Byte)
  /-- `mov_from_ram r, [addr]` (41_data_movement.md R132), format RA. -/
  | movFromRam (r : Byte) (addr : Word)
  /-- `dumpreg` (43_system.md R150), format N. -/
  | dumpreg
  /-- `add d, s` (42_arithmetic.md R141), format P: two nibbles. -/
  | add (d s : BitVec 4)
  /-- `sub d, s` (42_arithmetic.md R142), format P: two nibbles. -/
  | sub (d s : BitVec 4)
  /-- `inc r` (42_arithmetic.md R143), format R. -/
  | inc (r : Byte)
  /-- `dec r` (42_arithmetic.md R144), format R. -/
  | dec (r : Byte)
  /-- `ret` (43_system.md R151), format N. -/
  | ret
deriving DecidableEq, Repr

end Sys2Proof
end

