-- ==== Sys2Proof/WellFormed.lean ====
section
/-! DEFINITION. Which instructions are well formed: those the encoder can produce. The only check is on register
codes (spec/30_encoding.md R84, R85, R88); every immediate and every address is well formed (R86). -/

namespace Sys2Proof

/-- A register-code byte names a register: 0 is A, 1 is B, the other 254 values name none (R84). -/
def validCode (c : Byte) : Bool := c == 0x00#8 || c == 0x01#8

/-- A register-code nibble names a register: 0 is A, 1 is B, 2 to 15 name none (R85). -/
def validNibble (n : BitVec 4) : Bool := n == 0x0#4 || n == 0x1#4

/-- Every register code of the instruction names a register. -/
def Instr.wf : Instr → Bool
  | .movToReg r _ => validCode r
  | .movToRam _ r => validCode r
  | .movFromRam r _ => validCode r
  | .dumpreg => true
  | .add d s => validNibble d && validNibble s
  | .sub d s => validNibble d && validNibble s
  | .inc r => validCode r
  | .dec r => validCode r
  | .ret => true

end Sys2Proof
end

