-- ==== Sys2Proof/Decode.lean ====
section
/-! DEFINITION. From bytes to instructions and back (spec/30_encoding.md). The decoder is written once, over two
fetch primitives (40_fde_loop.md R112): applied to a list of bytes it is `decode`, applied to the machine it is
the fetch of Machine/Fetch.lean. The encoder `encode` is written from the formats of R82. -/

namespace Sys2Proof

/-! ## Bit fields and byte order -/

/-- The less significant byte of a word, `w[7:0]` (20_memory.md R55). -/
def loByte (w : Word) : Byte := w.extractLsb' 0 8

/-- The more significant byte of a word, `w[15:8]` (20_memory.md R55). -/
def hiByte (w : Word) : Byte := w.extractLsb' 8 8

/-- A word from its two cells, the first at the lower address: `hi ++ lo` (20_memory.md R54, R57). -/
def joinBytes (lo hi : Byte) : Word := hi ++ lo

/-- `p[7:4]`, the destination register code of a register pair (R85). -/
def highNibble (p : Byte) : BitVec 4 := p.extractLsb' 4 4

/-- `p[3:0]`, the source register code of a register pair (R85). -/
def lowNibble (p : Byte) : BitVec 4 := p.extractLsb' 0 4

/-- The register-pair byte `16 * dst + src` (R85). -/
def joinNibbles (d s : BitVec 4) : Byte := d ++ s

/-! ## Decoder -/

/-- Why a decoder stops: a needed byte lies outside memory, or the opcode byte is 0x09 to 0xFF (R87, R89). -/
inductive DecodeError where
  /-- A byte of the instruction is not there; the machine raises OutOfBounds (60_exceptions.md R201 a, b). -/
  | missingByte
  /-- The opcode byte is none of the nine; the machine raises UnknownOpcode (60_exceptions.md R203). -/
  | unknownOpcode
deriving DecidableEq, Repr

/-- The answer of one decode attempt over a source of bytes `σ`: an instruction and the source after its last
byte, or the reason of the stop and the source at the byte or word that could not be read. -/
inductive Decoded (σ : Type) where
  | instr (i : Instr) (rest : σ)
  | stop (e : DecodeError) (rest : σ)
deriving DecidableEq, Repr

/-- Go on with a fetched value, or stop where the fetch failed: a failed fetch consumes nothing (R112). -/
def Decoded.fetch {σ α : Type} (get : σ → Option (α × σ)) (s : σ) (next : α → σ → Decoded σ) : Decoded σ :=
  match get s with
  | none => .stop .missingByte s
  | some (v, s') => next v s'

/-- One decode attempt: the opcode byte, then the operands of its format in the order of R82, each register code
or pair by FetchByte and each 16-bit operand by FetchWord (40_fde_loop.md R111, R113; 20_memory.md R60). -/
def decodeWith {σ : Type} (fetchByte : σ → Option (Byte × σ)) (fetchWord : σ → Option (Word × σ)) (s : σ) :
    Decoded σ :=
  .fetch fetchByte s fun op s =>
    match op.toNat with
    | 0x00 => .fetch fetchByte s fun r s => .fetch fetchWord s fun imm s => .instr (.movToReg r imm) s
    | 0x01 => .fetch fetchWord s fun addr s => .fetch fetchByte s fun r s => .instr (.movToRam addr r) s
    | 0x02 => .fetch fetchByte s fun r s => .fetch fetchWord s fun addr s => .instr (.movFromRam r addr) s
    | 0x03 => .instr .dumpreg s
    | 0x04 => .fetch fetchByte s fun p s => .instr (.add (highNibble p) (lowNibble p)) s
    | 0x05 => .fetch fetchByte s fun p s => .instr (.sub (highNibble p) (lowNibble p)) s
    | 0x06 => .fetch fetchByte s fun r s => .instr (.inc r) s
    | 0x07 => .fetch fetchByte s fun r s => .instr (.dec r) s
    | 0x08 => .instr .ret s
    | _ => .stop .unknownOpcode s

/-- FetchByte on a list of bytes. -/
def takeByte : List Byte → Option (Byte × List Byte)
  | b :: rest => some (b, rest)
  | [] => none

/-- FetchWord on a list of bytes: both bytes or none, the less significant first (R86; 40_fde_loop.md R112). -/
def takeWord : List Byte → Option (Word × List Byte)
  | lo :: hi :: rest => some (joinBytes lo hi, rest)
  | _ => none

/-- The decoder on bytes, total, with the bytes that are left (R89). -/
def decode (bytes : List Byte) : Decoded (List Byte) := decodeWith takeByte takeWord bytes

/-! ## Encoder -/

/-- The opcode byte of each instruction (R83). -/
def Instr.opcode : Instr → Byte
  | .movToReg _ _ => 0x00#8
  | .movToRam _ _ => 0x01#8
  | .movFromRam _ _ => 0x02#8
  | .dumpreg => 0x03#8
  | .add _ _ => 0x04#8
  | .sub _ _ => 0x05#8
  | .inc _ => 0x06#8
  | .dec _ => 0x07#8
  | .ret => 0x08#8

/-- The bytes of an instruction, opcode first, at increasing addresses (R80, R82). -/
def encode : Instr → List Byte
  | .movToReg r imm => [0x00#8, r, loByte imm, hiByte imm]
  | .movToRam addr r => [0x01#8, loByte addr, hiByte addr, r]
  | .movFromRam r addr => [0x02#8, r, loByte addr, hiByte addr]
  | .dumpreg => [0x03#8]
  | .add d s => [0x04#8, joinNibbles d s]
  | .sub d s => [0x05#8, joinNibbles d s]
  | .inc r => [0x06#8, r]
  | .dec r => [0x07#8, r]
  | .ret => [0x08#8]

/-- The length of an instruction in bytes, a function of its opcode alone (R81). -/
def Instr.length : Instr → Nat
  | .movToReg _ _ => 4
  | .movToRam _ _ => 4
  | .movFromRam _ _ => 4
  | .dumpreg => 1
  | .add _ _ => 2
  | .sub _ _ => 2
  | .inc _ => 2
  | .dec _ => 2
  | .ret => 1

/-! ## The opcode table's words -/

/-- The longest instruction's four bytes of a table word: byte `k` is bits `8k+7 .. 8k` of `w`, and every bit
at or above `nbits` is 0. -/
def tableBytes (nbits w : Nat) : List Byte :=
  let v := w % 2 ^ nbits
  [BitVec.ofNat 8 v, BitVec.ofNat 8 (v / 2 ^ 8), BitVec.ofNat 8 (v / 2 ^ 16), BitVec.ofNat 8 (v / 2 ^ 24)]

/-- The instruction the decoder reads from a table word of `nbits` bits. -/
def decodeTableWord (nbits w : Nat) : Option Instr :=
  match decode (tableBytes nbits w) with
  | .instr i _ => some i
  | .stop _ _ => none

end Sys2Proof
end

