-- ==== Sys2Proof/Config.lean ====
section
/-! DEFINITION. The configuration of one instance (spec/00_scope.md R5), which no step changes, and the free
values: constants without a body, for what the spec leaves at any value (93_implementation_defined.md U6, U18). -/

namespace Sys2Proof

/-- The implementation parameters of one instance (00_scope.md R5). They are carried in State so that a
statement about every state is a statement about every instance (DESIGN CHOICE, safe, log 2). -/
structure Config where
  /-- CAP, the memory capacity in bytes. -/
  cap : Nat
  /-- DBG_EN, whether the Debug Tracer emits records (10_state.md R28). -/
  dbgEn : Bool
  /-- TRACE_SEP, the text between two rendered trace operands (60_exceptions.md R215). -/
  traceSep : String
deriving DecidableEq, Repr

/-- The defaults of 00_scope.md R5: CAP = 8192, DBG_EN = 0, TRACE_SEP = ", ". -/
def Config.standard : Config := { cap := 8192, dbgEn := false, traceSep := ", " }

/-- The range the spec gives CAP: `1 <= CAP <= 65535` (00_scope.md R5, decision D1). -/
abbrev Config.WF (c : Config) : Prop := 1 ≤ c.cap ∧ c.cap ≤ 65535

/-- A free value: ICOUNT outside a run is "not observable and not specified" (10_state.md R29, U18). The
argument is the number of free values drawn before (log 7, log 8). -/
opaque Config.freeCount : Nat → Nat

/-- A free value: the cell at address `a` (second argument) after a `load` that failed is unspecified
(45_host_commands.md R184, U6). The first argument is the number of free values drawn before (log 8, log 9). -/
opaque Config.freeByte : Nat → Nat → Byte

end Sys2Proof
end

