-- ==== Sys2Proof/Machine/State.lean ====
section
/-! DEFINITION. The state of one instance (spec/10_state.md R20), what the host sends and gets back
(45_host_commands.md), the reasons a step can stop, and the state right after reset (10_state.md R34). -/

namespace Sys2Proof.Machine

/-! ## Types of the machine's parts -/

/-- The two general registers (10_state.md R22). -/
inductive Reg where
  | A
  | B
deriving DecidableEq, Repr

/-- RUNSTATE (10_state.md R27). `halted` is transient: no step of a run leaves the machine in it. -/
inductive RunState where
  | idle
  | running
  | halted
deriving DecidableEq, Repr

/-- The four error kinds, a closed list (60_exceptions.md R200). An error carries its kind and nothing else (R205). -/
inductive ErrorKind where
  /-- An address outside `[0, CAP)` (60_exceptions.md R201). -/
  | outOfBounds
  /-- A register code other than 0 or 1 (60_exceptions.md R202). -/
  | invalidRegister
  /-- An opcode byte 0x09 to 0xFF (60_exceptions.md R203). -/
  | unknownOpcode
  /-- The byte sink of `save` or the byte source of `load` failed (60_exceptions.md R204). -/
  | ioError
deriving DecidableEq, Repr

/-- How a command completed (10_state.md R31). -/
inductive Status where
  | ok
  | failed (e : ErrorKind)
deriving DecidableEq, Repr

/-- MEM as the cells that differ from 0x00, by strictly rising address (10_state.md R21). -/
abbrev Memory := List Host.Cell

/-- A record of OUT: A, B and IP when `Dumpreg` ran (43_system.md R150). -/
structure OutRecord where
  a : Word
  b : Word
  ip : Word
deriving DecidableEq, Repr

/-- A decoded operand value, as the tracer shows it (60_exceptions.md R215). -/
inductive Operand where
  | reg (code : Byte)
  | addr (a : Word)
  | imm (v : Word)
deriving DecidableEq, Repr

/-- A record of TRACE: the line counter, the opcode, the operands in encoding order (60_exceptions.md R215). -/
structure TraceRecord where
  n : Nat
  opcode : Byte
  operands : List Operand
deriving DecidableEq, Repr

/-- What a command gives back besides its status (45_host_commands.md R182). -/
inductive Value where
  | nothing
  | byte (v : Byte)
  | word (v : Word)
  | text (t : String)
  /-- The bytes that reached the sink of a `save`. -/
  | bytes (bs : List Byte)
deriving DecidableEq, Repr

/-- The completion of one command: exactly one status (10_state.md R31). -/
structure Reply where
  status : Status
  value : Value
deriving DecidableEq, Repr

/-- The host's commands (45_host_commands.md R180). Register codes are bytes, encoder addresses and immediates
16-bit ports (44_encoder.md R161), memory-port addresses any natural number (20_memory.md R50) (log 10). -/
inductive Command where
  /-- 40_fde_loop.md R110. -/
  | run
  /-- 45_host_commands.md R181. -/
  | reset
  /-- 45_host_commands.md R183. `some k`: the sink takes `k` bytes and refuses the next; `none`: it refuses none (log 11). -/
  | save (accepts : Option Nat)
  /-- 45_host_commands.md R184. `source`: the bytes the source yields before it ends or a read fails (log 11). -/
  | load (source : List Byte)
  /-- 44_encoder.md R165. -/
  | writeMovToReg (r : Byte) (imm : Word)
  /-- 44_encoder.md R166. -/
  | writeMovToRam (addr : Word) (r : Byte)
  /-- 44_encoder.md R167. -/
  | writeMovFromRam (r : Byte) (addr : Word)
  /-- 44_encoder.md R168. -/
  | writeDumpreg
  /-- 44_encoder.md R169. -/
  | writeAdd (d s : Byte)
  /-- 44_encoder.md R170. -/
  | writeSub (d s : Byte)
  /-- 44_encoder.md R171. -/
  | writeInc (r : Byte)
  /-- 44_encoder.md R172. -/
  | writeDec (r : Byte)
  /-- 44_encoder.md R173. -/
  | writeRet
  /-- The register port, 45_host_commands.md R185. -/
  | get (code : Byte)
  | set (code : Byte) (v : Word)
  | increment (code : Byte)
  | decrement (code : Byte)
  | name (code : Byte)
  /-- The memory port, 45_host_commands.md R186. -/
  | readByte (addr : Nat)
  | writeByte (addr : Nat) (v : Byte)
  | readWord (addr : Nat)
  | writeWord (addr : Nat) (v : Word)
deriving DecidableEq, Repr

/-! ## State -/

/-- One instance with what its host has seen and will send. INVENTORY.md lists each field with its rule. -/
structure State where
  /-- CAP, DBG_EN, TRACE_SEP (00_scope.md R5): no step changes them. -/
  cfg : Config
  /-- MEM (10_state.md R21). -/
  mem : Memory
  /-- Register A (10_state.md R22). -/
  a : Word
  /-- Register B (10_state.md R22). -/
  b : Word
  /-- IP: fetch pointer while Running, encoder cursor while Idle (10_state.md R24, R25). -/
  ip : Word
  /-- RUNSTATE (10_state.md R27). -/
  runState : RunState
  /-- ICOUNT, the line counter (10_state.md R29). -/
  icount : Nat
  /-- OUT, oldest record first (10_state.md R30). -/
  out : List OutRecord
  /-- TRACE, oldest record first (10_state.md R30). -/
  trace : List TraceRecord
  /-- The completed commands' replies, oldest first (10_state.md R31; log 5). -/
  replies : List Reply
  /-- The commands the host will issue, next first; read only in Idle (45_host_commands.md R180; log 4). -/
  commands : List Command
  /-- How many free values have been drawn: the model's own field (log 8). -/
  freeCtr : Nat
deriving DecidableEq, Repr

/-- Why `step` can stop. Raised nowhere else: every error of the spec is a next state (`State.abort`, log 1). -/
inductive Fault where
  /-- Raised by `step` where CAP is outside 1 to 65535, of which the spec claims nothing (00_scope.md R5, decision
  D1: with more cells IP would have to wrap, which is never described). Safe (log 3). -/
  | capacityOutOfRange
deriving DecidableEq, Repr

/-- Why `exec` can refuse an instruction. -/
inductive Refusal where
  /-- Raised by an arm of `exec` whose instruction has no meaning yet. Safe. No arm raises it: all nine have one. -/
  | notModelled (mnemonic : String)
deriving DecidableEq, Repr

/-- The state right after power-on of an instance with configuration `cfg` (10_state.md R34): memory all zero,
A = B = IP = 0, Idle, streams empty. A, B and IP at power-on are the spec's decision D3 (log 14); ICOUNT is
unspecified there and 0 is a DESIGN CHOICE (log 6); `commands` and `freeCtr` are the model's own (log 4, log 8). -/
def State.powerOn (cfg : Config) : State where
  cfg := cfg
  mem := []
  a := 0#16
  b := 0#16
  ip := 0#16
  runState := .idle
  icount := 0
  out := []
  trace := []
  replies := []
  commands := []
  freeCtr := 0

/-- The machine right after reset, with the default configuration of 00_scope.md R5. -/
def State.reset : State := .powerOn .standard

end Sys2Proof.Machine
end

