-- ==== Sys2Proof/Machine/Ops.lean ====
section
/-! DEFINITION. The named operations over memory, registers, the run state and the observation streams that every
meaning and every host command is built from, and `State.abort`, the one operation that takes an error. -/

namespace Sys2Proof.Machine

/-! ## Cells (spec/20_memory.md) -/

/-- What a cell that is not listed reads as: memory is "zero-initialized" (10_state.md R21). -/
def Memory.blank : Byte := 0x00#8

/-- `MEM[a]`. -/
def Memory.get : Memory → Nat → Byte
  | [], _ => Memory.blank
  | (k, v) :: rest, a => if k = a then v else Memory.get rest a

/-- A cell in front of later ones, left out where it holds what an unlisted cell reads as. -/
def Memory.cons (a : Nat) (v : Byte) (rest : Memory) : Memory :=
  if v = Memory.blank then rest else (a, v) :: rest

/-- `MEM[a] <- v`, keeping the canonical form. -/
def Memory.put : Memory → Nat → Byte → Memory
  | [], a, v => Memory.cons a v []
  | (k, w) :: rest, a, v =>
    if a < k then Memory.cons a v ((k, w) :: rest)
    else if a = k then Memory.cons a v rest
    else (k, w) :: Memory.put rest a v

/-- The canonical form: addresses strictly rising, no cell listed that holds what an unlisted one reads as. -/
abbrev Memory.wf (m : Memory) : Prop :=
  m.Pairwise (fun x y => x.1 < y.1) ∧ ∀ c ∈ m, c.2 ≠ Memory.blank

/-- Every listed cell exists: its address is below CAP (R51). -/
abbrev Memory.within (cap : Nat) (m : Memory) : Prop := ∀ c ∈ m, c.1 < cap

/-- Bytes at increasing addresses from `a`. -/
def Memory.putBytes (m : Memory) (a : Nat) : List Byte → Memory
  | [] => m
  | v :: rest => Memory.putBytes (Memory.put m a v) (a + 1) rest

/-- The memory whose cell at each `a < cap` is `f a`. -/
def Memory.ofCells (cap : Nat) (f : Nat → Byte) : Memory :=
  ((List.range cap).map fun a => (a, f a)).filter fun c => c.2 != Memory.blank

/-! ## The access primitives (spec/20_memory.md R52 to R55)

The bounds check is on unbounded integers and never wraps (R56). -/

/-- `MemRead(addr, 1)` (R52). -/
def Memory.readByte (cap : Nat) (m : Memory) (addr : Nat) : Except ErrorKind Byte :=
  if addr + 1 ≤ cap then .ok (Memory.get m addr) else .error .outOfBounds

/-- `MemRead(addr, 2)`: `MEM[addr+1] ++ MEM[addr]` (R54). -/
def Memory.readWord (cap : Nat) (m : Memory) (addr : Nat) : Except ErrorKind Word :=
  if addr + 2 ≤ cap then .ok (joinBytes (Memory.get m addr) (Memory.get m (addr + 1)))
  else .error .outOfBounds

/-- `MemWrite(addr, 1, v)` (R53). -/
def Memory.writeByte (cap : Nat) (m : Memory) (addr : Nat) (v : Byte) : Except ErrorKind Memory :=
  if addr + 1 ≤ cap then .ok (Memory.put m addr v) else .error .outOfBounds

/-- `MemWrite(addr, 2, v)`: both cells or neither (R55). -/
def Memory.writeWord (cap : Nat) (m : Memory) (addr : Nat) (v : Word) : Except ErrorKind Memory :=
  if addr + 2 ≤ cap then .ok (Memory.putBytes m addr [loByte v, hiByte v]) else .error .outOfBounds

/-- `clear()`: every cell 0 (R66). -/
def Memory.clear : Memory := []

/-- `asBytes()`: the CAP cells in order (R67). -/
def Memory.asBytes (cap : Nat) (m : Memory) : List Byte := (List.range cap).map (Memory.get m)

/-! ## Registers (spec/10_state.md R22, 00_scope.md R7) -/

/-- `RegCheck(c)`: 0 is A, 1 is B, any other code raises InvalidRegister (60_exceptions.md R202). -/
def regCheck (c : Byte) : Except ErrorKind Reg :=
  if c = 0x00#8 then .ok .A else if c = 0x01#8 then .ok .B else .error .invalidRegister

/-- `x[c]`, its code checked. -/
def State.readReg (s : State) : Reg → Word
  | .A => s.a
  | .B => s.b

/-- `x[c] <- v`, its code checked: the other register keeps its value. -/
def State.writeReg (s : State) (r : Reg) (v : Word) : State :=
  { s with a := if r = .A then v else s.a, b := if r = .B then v else s.b }

/-! ## Streams (spec/10_state.md R30, R31) -/

/-- A command completes with one status and gives back a value. -/
def State.reply (s : State) (status : Status) (v : Value) : State :=
  { s with replies := s.replies ++ [{ status := status, value := v }] }

/-- `emit OUT(a = A, b = B, ip = ip)` (43_system.md R150). -/
def State.emitOut (s : State) : State :=
  { s with out := s.out ++ [{ a := s.a, b := s.b, ip := s.ip }] }

/-- Outside a run ICOUNT is not specified (10_state.md R29, R34): it becomes a free value (log 7). -/
def State.forgetCount (s : State) : State :=
  { s with icount := Config.freeCount s.freeCtr, freeCtr := s.freeCtr + 1 }

/-! ## The run (spec/40_fde_loop.md) -/

/-- `run` starts: `ip <- 0; ICOUNT <- 0; RUNSTATE <- Running`, nothing else (R110). -/
def State.startRun (s : State) : State := { s with ip := 0#16, icount := 0, runState := .running }

/-- The `run` command completes: back to Idle, with its status. -/
def State.finishRun (s : State) (status : Status) : State :=
  { s.forgetCount.reply status .nothing with runState := .idle }

/-- TAKING AN ERROR during a run, the one operation for all of them (60_exceptions.md R207, 40_fde_loop.md R118):
the run ends with the error as its status, RUNSTATE goes to Idle without passing through Halted, IP keeps its
value, nothing is saved and no handler runs. There is no return from it (R209). -/
def State.abort (s : State) (e : ErrorKind) : State := s.finishRun (.failed e)

/-- The exit from Halted: IP is reset to 0, the run completes with status OK (43_system.md R151). -/
def State.exitHalted (s : State) : State := { s with ip := 0#16 }.finishRun .ok

/-- `Ret` halts: Halted is passed through within the one step (43_system.md R151; 40_fde_loop.md R115). -/
def State.halt (s : State) : State := { s with runState := .halted }.exitHalted

end Sys2Proof.Machine
end

