-- ==== Sys2Proof/Machine/Operands.lean ====
section
/-! DEFINITION. The operand forms of the nine instructions (spec/30_encoding.md R84 to R86) as the handlers use them,
and the tracer's view of an instruction's operands (60_exceptions.md R215). -/

namespace Sys2Proof.Machine

/-- A register-pair nibble is a register code on its own (30_encoding.md R85). -/
def nibbleCode (n : BitVec 4) : Byte := n.setWidth 8

/-- An address operand is the absolute cell index of the word's first byte: unsigned, unscaled, not relative to IP
(30_encoding.md R86; 20_memory.md R63). -/
def cellIndex (addr : Word) : Nat := addr.toNat

/-- The decoded operand values in encoding order (60_exceptions.md R215). -/
def operandsOf : Instr → List Operand
  | .movToReg r imm => [.reg r, .imm imm]
  | .movToRam addr r => [.addr addr, .reg r]
  | .movFromRam r addr => [.reg r, .addr addr]
  | .dumpreg => []
  | .add d s => [.reg (nibbleCode d), .reg (nibbleCode s)]
  | .sub d s => [.reg (nibbleCode d), .reg (nibbleCode s)]
  | .inc r => [.reg r]
  | .dec r => [.reg r]
  | .ret => []

/-- A handler completes: one trace record if DBG_EN = 1, labelled with the current ICOUNT, then ICOUNT counts the
instruction (40_fde_loop.md R119). -/
def State.retire (s : State) (i : Instr) : State :=
  { s with
    trace := bif s.cfg.dbgEn then s.trace ++ [{ n := s.icount, opcode := i.opcode, operands := operandsOf i }]
             else s.trace
    icount := s.icount + 1 }

/-- How every handler ends: its effect completed and the instruction retires, or an error was raised and, the effect
being all or nothing, the run is aborted from the state before it (40_fde_loop.md R113, R118, R119). -/
def State.conclude (s : State) (i : Instr) (effect : Except ErrorKind State) :
    Host.Outcome State Fault Refusal :=
  match effect with
  | .ok t => .next (t.retire i)
  | .error e => .next (s.abort e)

end Sys2Proof.Machine
end

