-- ==== Sys2Proof/Machine/Flags.lean ====
section
/-! DEFINITION. The ALU (spec/42_arithmetic.md R140). The machine has no flags: carry, borrow, overflow, zero and sign
are recorded nowhere (10_state.md R32), so an ALU operation is its 16-bit result and this file computes no flag. -/

namespace Sys2Proof.Machine

/-- `add(x, y) = u16(x + y)`: the carry is discarded (R140; wrapping is the spec's decision D7, log 17). -/
def aluAdd (x y : Word) : Word := x + y

/-- `sub(x, y) = u16(x - y)`: the borrow is discarded (R140; wrapping is the spec's decision D7, log 17). -/
def aluSub (x y : Word) : Word := x - y

/-- `inc(x) = u16(x + 1)`: 65535 gives 0 (R140). -/
def aluInc (x : Word) : Word := x + 1#16

/-- `dec(x) = u16(x - 1)`: 0 gives 65535 (R140). -/
def aluDec (x : Word) : Word := x - 1#16

/-- A two-register operation: both codes are checked, both values are read before the one write (R141, R142;
10_state.md R23). -/
def State.pairOp (s : State) (f : Word → Word → Word) (d src : BitVec 4) : Except ErrorKind State := do
  let rd ← regCheck (nibbleCode d)
  let rs ← regCheck (nibbleCode src)
  return s.writeReg rd (f (s.readReg rd) (s.readReg rs))

/-- A one-register operation (R143, R144), also the register port's increment and decrement (45_host_commands.md R185). -/
def State.regOp (s : State) (f : Word → Word) (r : Byte) : Except ErrorKind State := do
  let x ← regCheck r
  return s.writeReg x (f (s.readReg x))

end Sys2Proof.Machine
end

