-- ==== Sys2Proof/Machine/Arithmetic.lean ====
section
/-! DEFINITION. The meanings of Add, Sub, Inc and Dec (spec/42_arithmetic.md), in the state with all operand bytes
consumed (40_fde_loop.md R113; log 12). -/

namespace Sys2Proof.Machine

/-- `x[d] <- u16(x[d] + x[s])` (R141). -/
def execAdd (d src : BitVec 4) (s : State) : Host.Outcome State Fault Refusal :=
  s.conclude (.add d src) (s.pairOp aluAdd d src)

/-- `x[d] <- u16(x[d] - x[s])` (R142). -/
def execSub (d src : BitVec 4) (s : State) : Host.Outcome State Fault Refusal :=
  s.conclude (.sub d src) (s.pairOp aluSub d src)

/-- `x[r] <- u16(x[r] + 1)` (R143). -/
def execInc (r : Byte) (s : State) : Host.Outcome State Fault Refusal :=
  s.conclude (.inc r) (s.regOp aluInc r)

/-- `x[r] <- u16(x[r] - 1)` (R144). -/
def execDec (r : Byte) (s : State) : Host.Outcome State Fault Refusal :=
  s.conclude (.dec r) (s.regOp aluDec r)

end Sys2Proof.Machine
end

