-- ==== Sys2Proof/Machine/DataMovement.lean ====
section
/-! DEFINITION. The meanings of MovToReg, MovToRam and MovFromRam (spec/41_data_movement.md). Each runs in the state in
which the opcode and all operand bytes have been consumed, IP at the next instruction (40_fde_loop.md R113; log 12). -/

namespace Sys2Proof.Machine

/-- `x[r] <- imm` (R130). -/
def execMovToReg (r : Byte) (imm : Word) (s : State) : Host.Outcome State Fault Refusal :=
  s.conclude (.movToReg r imm) do
    let x ← regCheck r
    return s.writeReg x imm

/-- `MemWrite(addr, 2, x[r])`; the register code is checked before the address (R131, decision D6, log 16). -/
def execMovToRam (addr : Word) (r : Byte) (s : State) : Host.Outcome State Fault Refusal :=
  s.conclude (.movToRam addr r) do
    let x ← regCheck r
    let m ← Memory.writeWord s.cfg.cap s.mem (cellIndex addr) (s.readReg x)
    return { s with mem := m }

/-- `x[r] <- MemRead(addr, 2)`; the register code is checked before the address (R132, decision D6, log 16). -/
def execMovFromRam (r : Byte) (addr : Word) (s : State) : Host.Outcome State Fault Refusal :=
  s.conclude (.movFromRam r addr) do
    let x ← regCheck r
    let v ← Memory.readWord s.cfg.cap s.mem (cellIndex addr)
    return s.writeReg x v

end Sys2Proof.Machine
end

