-- ==== Sys2Proof/Machine/System.lean ====
section
/-! DEFINITION. The meanings of Dumpreg and Ret (spec/43_system.md), in the state with the opcode consumed, so that IP is
the opcode's address + 1 (40_fde_loop.md R111; log 12). -/

namespace Sys2Proof.Machine

/-- Append (A, B, IP) to OUT, whatever DBG_EN; no other effect (R150). -/
def execDumpreg (s : State) : Host.Outcome State Fault Refusal :=
  s.conclude .dumpreg (.ok s.emitOut)

/-- Halt: the handler is traced and counted like any other, then the run ends with status OK and IP = 0 (R151). -/
def execRet (s : State) : Host.Outcome State Fault Refusal :=
  .next (s.retire .ret).halt

end Sys2Proof.Machine
end

