-- ==== Sys2Proof/Machine/Dispatch.lean ====
section
/-! DEFINITION. The dispatch unit (spec/40_fde_loop.md R111): one arm per instruction, one meaning each. -/

namespace Sys2Proof.Machine

def exec (i : Instr) (s : State) : Host.Outcome State Fault Refusal :=
  match i with
  | .movToReg r imm => Sys2Proof.Machine.execMovToReg r imm s
  | .movToRam addr r => Sys2Proof.Machine.execMovToRam addr r s
  | .movFromRam r addr => Sys2Proof.Machine.execMovFromRam r addr s
  | .dumpreg => Sys2Proof.Machine.execDumpreg s
  | .add d src => Sys2Proof.Machine.execAdd d src s
  | .sub d src => Sys2Proof.Machine.execSub d src s
  | .inc r => Sys2Proof.Machine.execInc r s
  | .dec r => Sys2Proof.Machine.execDec r s
  | .ret => Sys2Proof.Machine.execRet s

end Sys2Proof.Machine
end

