-- ==== Sys2Proof/Machine/Fetch.lean ====
section
/-! DEFINITION. Fetching an instruction from MEM at IP (spec/40_fde_loop.md R111, R112). -/

namespace Sys2Proof.Machine

/-- `FetchByte()`: read the byte at IP and advance IP by 1; a failed read advances nothing (R112). -/
def State.fetchByte (s : State) : Option (Byte × State) :=
  match Memory.readByte s.cfg.cap s.mem s.ip.toNat with
  | .ok v => some (v, { s with ip := s.ip + 1#16 })
  | .error _ => none

/-- `FetchWord()`: one word read with one bounds check on both cells, then IP advances by 2 (R112, decision D20, log 15). -/
def State.fetchWord (s : State) : Option (Word × State) :=
  match Memory.readWord s.cfg.cap s.mem s.ip.toNat with
  | .ok v => some (v, { s with ip := s.ip + 2#16 })
  | .error _ => none

/-- Fetch and decode the instruction at IP: the decoder of Decode.lean over FetchByte and FetchWord. The state it
answers with has IP past the consumed bytes. -/
def State.fetchInstr (s : State) : Decoded State := decodeWith State.fetchByte State.fetchWord s

/-- The error a stopped decode attempt raises (60_exceptions.md R201 a and b, R203). -/
def decodeErrorKind : DecodeError → ErrorKind
  | .missingByte => .outOfBounds
  | .unknownOpcode => .unknownOpcode

/-- Bytes at increasing addresses from `a`, those at or above CAP left out. -/
def Memory.putBytesBelow (cap : Nat) (m : Memory) (a : Nat) : List Byte → Memory
  | [] => m
  | v :: rest => Memory.putBytesBelow cap (if a < cap then Memory.put m a v else m) (a + 1) rest

end Sys2Proof.Machine
end

