-- ==== Sys2Proof/Machine/Controller.lean ====
section
/-! DEFINITION. One iteration of the fetch-decode-execute loop (spec/40_fde_loop.md R111). -/

namespace Sys2Proof.Machine

/-- Fetch and decode, then the handler; or the abort for the error raised on the way, in the state in which it was raised
(R111, R118). -/
def State.runInstr (s : State) : Host.Outcome State Fault Refusal :=
  match s.fetchInstr with
  | .instr i t => exec i t
  | .stop e t => .next (t.abort (decodeErrorKind e))

end Sys2Proof.Machine
end

