-- ==== Sys2Proof/Machine/Encoder.lean ====
section
/-! DEFINITION. The instruction encoder: nine host commands that put an instruction into memory at the cursor, which is
IP, and execute nothing (spec/44_encoder.md). -/

namespace Sys2Proof.Machine

/-- `EncoderWrite` (R160): the register codes are validated first (R161; decision D9, log 16), then the length is checked
against the remaining capacity (R162); only then the bytes are written and the cursor advances. On failure neither
memory nor IP changes (decision D8, log 15). -/
def State.encoderWrite (s : State) (codes : List Byte) (i : Instr) : State :=
  if codes.all validCode then
    if s.ip.toNat + i.length ≤ s.cfg.cap then
      { s with
        mem := Memory.putBytes s.mem s.ip.toNat (encode i)
        ip := s.ip + BitVec.ofNat 16 i.length }.reply .ok .nothing
    else s.reply (.failed .outOfBounds) .nothing
  else s.reply (.failed .invalidRegister) .nothing

/-- R165. -/
def cmdWriteMovToReg (r : Byte) (imm : Word) (s : State) : State := s.encoderWrite [r] (.movToReg r imm)

/-- R166. The address is not compared with CAP (R163). -/
def cmdWriteMovToRam (addr : Word) (r : Byte) (s : State) : State := s.encoderWrite [r] (.movToRam addr r)

/-- R167. The address is not compared with CAP (R163). -/
def cmdWriteMovFromRam (r : Byte) (addr : Word) (s : State) : State := s.encoderWrite [r] (.movFromRam r addr)

/-- R168. -/
def cmdWriteDumpreg (s : State) : State := s.encoderWrite [] .dumpreg

/-- R169: a valid code fits its nibble. -/
def cmdWriteAdd (d src : Byte) (s : State) : State := s.encoderWrite [d, src] (.add (lowNibble d) (lowNibble src))

/-- R170: a valid code fits its nibble. -/
def cmdWriteSub (d src : Byte) (s : State) : State := s.encoderWrite [d, src] (.sub (lowNibble d) (lowNibble src))

/-- R171. -/
def cmdWriteInc (r : Byte) (s : State) : State := s.encoderWrite [r] (.inc r)

/-- R172. -/
def cmdWriteDec (r : Byte) (s : State) : State := s.encoderWrite [r] (.dec r)

/-- R173. -/
def cmdWriteRet (s : State) : State := s.encoderWrite [] .ret

end Sys2Proof.Machine
end

