-- ==== Sys2Proof/Machine/HostCommands.lean ====
section
/-! DEFINITION. The host commands and component ports (spec/45_host_commands.md). Each but `run` completes in the one step
that accepts it, with one reply (R180, R182). -/

namespace Sys2Proof.Machine

/-- What `reset` does to the core (R181): MEM all zero, A = B = IP = 0, Idle; the streams and the configuration stay.
ICOUNT is unspecified after it (10_state.md R34): a free value (log 7). -/
def State.resetCore (s : State) : State :=
  { s.forgetCount with mem := Memory.clear, a := 0#16, b := 0#16, ip := 0#16, runState := .idle }

/-- R181: it cannot fail. -/
def cmdReset (s : State) : State := s.resetCore.reply .ok .nothing

/-- How many of CAP bytes a sink takes (log 11). -/
def sinkTakes (cap : Nat) : Option Nat → Nat
  | none => cap
  | some k => min k cap

/-- R183: the CAP cells in order go to the sink; no state of the core changes, whether the sink refuses a byte
(IOError) or not (decision D23, log 18). -/
def cmdSave (accepts : Option Nat) (s : State) : State :=
  let n := sinkTakes s.cfg.cap accepts
  s.reply (if n = s.cfg.cap then .ok else .failed .ioError)
    (.bytes ((Memory.asBytes s.cfg.cap s.mem).take n))

/-- R184: `reset` first; then exactly CAP bytes, in order, surplus bytes ignored (decision D16, log 18). If the source
yields fewer, IOError, and every cell holds a free value (log 9). -/
def cmdLoad (source : List Byte) (s : State) : State :=
  let t := s.resetCore
  if t.cfg.cap ≤ source.length then
    { t with mem := Memory.ofCells t.cfg.cap (fun a => source.getD a Memory.blank) }.reply .ok .nothing
  else
    { t with
      mem := Memory.ofCells t.cfg.cap (Config.freeByte t.freeCtr)
      freeCtr := t.freeCtr + 1 }.reply (.failed .ioError) .nothing

/-- A port operation completes: with the value it read or the change it made, or with its error and no change (R182). -/
def State.port (s : State) (r : Except ErrorKind (State × Value)) : State :=
  match r with
  | .ok (t, v) => t.reply .ok v
  | .error e => s.reply (.failed e) .nothing

/-- `get(code)` (R185). -/
def cmdGet (code : Byte) (s : State) : State :=
  s.port do
    let x ← regCheck code
    return (s, .word (s.readReg x))

/-- `set(code, value)` (R185). -/
def cmdSet (code : Byte) (v : Word) (s : State) : State :=
  s.port do
    let x ← regCheck code
    return (s.writeReg x v, .nothing)

/-- `increment(code)` (R185). -/
def cmdIncrement (code : Byte) (s : State) : State :=
  s.port do
    let t ← s.regOp aluInc code
    return (t, .nothing)

/-- `decrement(code)` (R185). -/
def cmdDecrement (code : Byte) (s : State) : State :=
  s.port do
    let t ← s.regOp aluDec code
    return (t, .nothing)

/-- The trace name of a register (R185). -/
def regName : Reg → String
  | .A => "a"
  | .B => "b"

/-- `name(code)` (R185). -/
def cmdName (code : Byte) (s : State) : State :=
  s.port do
    let x ← regCheck code
    return (s, .text (regName x))

/-- `readByte(addr)` (R186). -/
def cmdReadByte (addr : Nat) (s : State) : State :=
  s.port do
    let v ← Memory.readByte s.cfg.cap s.mem addr
    return (s, .byte v)

/-- `writeByte(addr, byte)` (R186). -/
def cmdWriteByte (addr : Nat) (v : Byte) (s : State) : State :=
  s.port do
    let m ← Memory.writeByte s.cfg.cap s.mem addr v
    return ({ s with mem := m }, .nothing)

/-- `readWord(addr)` (R186). -/
def cmdReadWord (addr : Nat) (s : State) : State :=
  s.port do
    let v ← Memory.readWord s.cfg.cap s.mem addr
    return (s, .word v)

/-- `writeWord(addr, u16)` (R186). -/
def cmdWriteWord (addr : Nat) (v : Word) (s : State) : State :=
  s.port do
    let m ← Memory.writeWord s.cfg.cap s.mem addr v
    return ({ s with mem := m }, .nothing)

/-- A command is carried out: `run` starts (40_fde_loop.md R110) and completes in a later step, every other command
completes at once. -/
def State.perform (s : State) : Command → State
  | .run => s.startRun
  | .reset => cmdReset s
  | .save accepts => cmdSave accepts s
  | .load source => cmdLoad source s
  | .writeMovToReg r imm => cmdWriteMovToReg r imm s
  | .writeMovToRam addr r => cmdWriteMovToRam addr r s
  | .writeMovFromRam r addr => cmdWriteMovFromRam r addr s
  | .writeDumpreg => cmdWriteDumpreg s
  | .writeAdd d src => cmdWriteAdd d src s
  | .writeSub d src => cmdWriteSub d src s
  | .writeInc r => cmdWriteInc r s
  | .writeDec r => cmdWriteDec r s
  | .writeRet => cmdWriteRet s
  | .get code => cmdGet code s
  | .set code v => cmdSet code v s
  | .increment code => cmdIncrement code s
  | .decrement code => cmdDecrement code s
  | .name code => cmdName code s
  | .readByte addr => cmdReadByte addr s
  | .writeByte addr v => cmdWriteByte addr v s
  | .readWord addr => cmdReadWord addr s
  | .writeWord addr v => cmdWriteWord addr v s

/-- One step of the idle core: accept the host's next command (R180); with none, wait and lose nothing
(60_exceptions.md R217; 70_reset_and_hazards.md R231). -/
def State.serveHost (s : State) : State :=
  match s.commands with
  | [] => s
  | c :: rest => { s with commands := rest }.perform c

/-- The parser's word for a command (R188): the nine mnemonics are encoder writes, four words are control calls, the
port operations have none. -/
def Command.mnemonic : Command → Option String
  | .writeMovToReg _ _ => some "mov_to_reg"
  | .writeMovToRam _ _ => some "mov_to_ram"
  | .writeMovFromRam _ _ => some "mov_from_ram"
  | .writeDumpreg => some "dumpreg"
  | .writeAdd _ _ => some "add"
  | .writeSub _ _ => some "sub"
  | .writeInc _ => some "inc"
  | .writeDec _ => some "dec"
  | .writeRet => some "ret"
  | .run => some "run"
  | .save _ => some "save"
  | .load _ => some "load"
  | .reset => some "reset"
  | .get _ => none
  | .set _ _ => none
  | .increment _ => none
  | .decrement _ => none
  | .name _ => none
  | .readByte _ => none
  | .writeByte _ _ => none
  | .readWord _ => none
  | .writeWord _ _ => none

/-- The numbers of a status port (60_exceptions.md R200, decision D4, log 20): nothing depends on them. -/
def Status.code : Status → Nat
  | .ok => 0
  | .failed .outOfBounds => 1
  | .failed .invalidRegister => 2
  | .failed .unknownOpcode => 3
  | .failed .ioError => 4

end Sys2Proof.Machine
end

