-- ==== Sys2Proof/Machine/Step.lean ====
section
/-! DEFINITION. One step of the machine: while Running, one instruction (spec/40_fde_loop.md R111, R115); while Idle, the
host's next command (45_host_commands.md R180). -/

namespace Sys2Proof.Machine

/-- One step. `halted` is left at once (10_state.md R27); no step leads to it (log 21). -/
def step (s : State) : Host.Outcome State Fault Refusal :=
  if s.cfg.WF then
    match s.runState with
    | .idle => .next s.serveHost
    | .running => s.runInstr
    | .halted => .next s.exitHalted
  else .fault .capacityOutOfRange

/-- `s` with the instruction of a table word placed where the next step fetches: at IP in a run, otherwise at address 0 of
a run that has just started (40_fde_loop.md R110; log 13). -/
def State.withFetchWord (s : State) (nbits w : Nat) : State :=
  let t := if s.runState = .running then s else s.startRun
  { t with mem := Memory.putBytesBelow t.cfg.cap t.mem t.ip.toNat (tableBytes nbits w) }

end Sys2Proof.Machine
end

