-- ==== Sys2Proof/Machine/Render.lean ====
section
/-! DEFINITION. The text renderings of OUT and TRACE records (spec/43_system.md R150, 60_exceptions.md R215). They are
informative: no step depends on them (00_scope.md R4 c; log 19). A rendered line stands without its line feed. -/

namespace Sys2Proof.Machine

/-- An unsigned decimal number without padding. -/
def decimal (n : Nat) : String := toString n

/-- The three lines of a Dumpreg record (43_system.md R150, decision D15). -/
def OutRecord.lines (r : OutRecord) : List String :=
  ["a: " ++ decimal r.a.toNat, "b: " ++ decimal r.b.toNat, "ip: " ++ decimal r.ip.toNat]

/-- The lower-case mnemonic of an opcode byte (30_encoding.md R83). -/
def opcodeName (op : Byte) : String :=
  match op.toNat with
  | 0x00 => "mov_to_reg"
  | 0x01 => "mov_to_ram"
  | 0x02 => "mov_from_ram"
  | 0x03 => "dumpreg"
  | 0x04 => "add"
  | 0x05 => "sub"
  | 0x06 => "inc"
  | 0x07 => "dec"
  | 0x08 => "ret"
  | _ => ""

/-- A register by its name, an address in brackets, an immediate in decimal (R215). A completed instruction has valid
register codes only; any other renders as nothing. -/
def Operand.text : Operand → String
  | .reg code => match regCheck code with
    | .ok r => regName r
    | .error _ => ""
  | .addr a => "[" ++ decimal a.toNat ++ "]"
  | .imm v => decimal v.toNat

/-- The label: at least two digits, all of them from 100 on (R215, decision D21). -/
def lineLabel (n : Nat) : String := if n < 10 then "0" ++ decimal n else decimal n

/-- The line of a trace record: operands in encoding order with TRACE_SEP between, nothing after the mnemonic of an
instruction without operands (R215, decision D14). -/
def TraceRecord.line (sep : String) (r : TraceRecord) : String :=
  "debug [" ++ lineLabel r.n ++ "]: " ++ opcodeName r.opcode ++
    (if r.operands.isEmpty then "" else " " ++ String.intercalate sep (r.operands.map Operand.text))

end Sys2Proof.Machine
end

