-- ==== Sys2Proof/Safety.lean ====
section
/-! DEFINITION. The invariant of the machine and the terms in which claims are made. -/

namespace Sys2Proof.Machine

/-- What holds of a state between steps: CAP is in its range (spec/00_scope.md R5), memory is canonical and lies inside
`[0, CAP)` (20_memory.md R51), `0 <= IP <= CAP` (10_state.md R26), and RUNSTATE is not the transient Halted (R27). -/
structure State.Inv (s : State) : Prop where
  cap : s.cfg.WF
  mem : Memory.wf s.mem
  within : Memory.within s.cfg.cap s.mem
  ip : s.ip.toNat ≤ s.cfg.cap
  run : s.runState ≠ .halted

/-- A byte of memory, as every statement about memory reads it. -/
def State.byteAt (s : State) (a : Nat) : Byte := Memory.get s.mem a

/-- The bytes from IP to the end of memory: what an instruction at IP can be made of. -/
def State.bytesAtIp (s : State) : List Byte :=
  (List.range (s.cfg.cap - s.ip.toNat)).map fun k => s.byteAt (s.ip.toNat + k)

/-- `k` steps of the machine. -/
def State.runFor (s : State) (k : Nat) : Host.Outcome State Fault Refusal := core.run k s

end Sys2Proof.Machine
end

