-- ==== Sys2Proof/Certificates/Slice0/Obligations.lean ====
section
/-! DEFINITION. The statements for the provers. The vocabulary comes first (namespace Sys2Proof.Claims), then one definition
per statement. Each docstring names the rule or section of spec/ it formalises and the decisions it rests on. -/

namespace Sys2Proof.Claims
open Sys2Proof.Machine

/-- The register code of a register (10_state.md R22). -/
def codeOf : Reg → Byte
  | .A => 0x00#8
  | .B => 0x01#8

/-- The register-code nibble of a register (30_encoding.md R85). -/
def nibbleOf : Reg → BitVec 4
  | .A => 0x0#4
  | .B => 0x1#4

/-- `byte_lo + 256 * byte_hi`, on numbers (30_encoding.md R86). -/
def littleEndian (lo hi : Byte) : Word := BitVec.ofNat 16 (lo.toNat + 256 * hi.toNat)

/-- TRACE after an instruction that completes: one record more if DBG_EN = 1 (40_fde_loop.md R119). -/
def traced (s : State) (i : Instr) : List TraceRecord :=
  bif s.cfg.dbgEn then s.trace ++ [⟨s.icount, i.opcode, operandsOf i⟩] else s.trace

/-- Every byte of memory reads as before. -/
def SameMemory (s t : State) : Prop := ∀ a, t.byteAt a = s.byteAt a

/-- Every byte of memory outside the `n` bytes from `addr` reads as before. -/
def SameMemoryOutside (s t : State) (addr n : Nat) : Prop :=
  ∀ a, a < addr ∨ addr + n ≤ a → t.byteAt a = s.byteAt a

/-- The instruction completed: counted, traced, and nothing else touched but registers, memory, IP and OUT, of which the
statement says more. -/
def Retired (i : Instr) (s t : State) : Prop :=
  t = { s with a := t.a, b := t.b, mem := t.mem, ip := t.ip, out := t.out, icount := s.icount + 1, trace := traced s i }

/-- The run was aborted with error `e` and IP at `ip`: Idle, one reply more, everything else untouched but ICOUNT, which is
unspecified outside a run (60_exceptions.md R207). Where a handler raised `e`, the value of IP is the spec's decision D5
(log 15) and that TRACE gains no record its decision D14 (log 19). -/
def AbortedTo (s t : State) (ip : Nat) (e : ErrorKind) : Prop :=
  t.ip.toNat = ip ∧
  t = { s with ip := t.ip, runState := .idle, replies := s.replies ++ [⟨.failed e, .nothing⟩],
               icount := t.icount, freeCtr := t.freeCtr }

def StepAborts (s : State) (ip : Nat) (e : ErrorKind) : Prop := ∃ t, step s = .next t ∧ AbortedTo s t ip e

def StepCompletes (s : State) (i : Instr) (ip : Nat) (post : State → Prop) : Prop :=
  ∃ t, step s = .next t ∧ Retired i s t ∧ t.ip.toNat = ip ∧ post t

def ExecAborts (i : Instr) (s : State) (e : ErrorKind) : Prop := ∃ t, exec i s = .next t ∧ AbortedTo s t s.ip.toNat e

def ExecCompletes (i : Instr) (s : State) (post : State → Prop) : Prop :=
  ∃ t, exec i s = .next t ∧ Retired i s t ∧ t.ip = s.ip ∧ post t

/-- A run is in progress and IP is at opcode byte `op`. -/
def AtOpcode (s : State) (op : Byte) : Prop :=
  s.Inv ∧ s.runState = .running ∧ s.ip.toNat < s.cfg.cap ∧ s.byteAt s.ip.toNat = op

/-- The core is idle and the host's next command is `c`. -/
def Serving (s : State) (c : Command) (rest : List Command) : Prop :=
  s.Inv ∧ s.runState = .idle ∧ s.commands = c :: rest

/-- One command was accepted and completed with the given reply; nothing else of the model's host side changed. -/
def Replied (s t : State) (rest : List Command) (status : Status) (v : Value) : Prop :=
  t.runState = .idle ∧ t.commands = rest ∧ t.replies = s.replies ++ [⟨status, v⟩] ∧ t.cfg = s.cfg

/-- A, B, IP and every byte of memory are as before. -/
def SameCore (s t : State) : Prop := t.a = s.a ∧ t.b = s.b ∧ t.ip = s.ip ∧ SameMemory s t

/-- The streams are as before. -/
def SameStreams (s t : State) : Prop := t.out = s.out ∧ t.trace = s.trace

/-- Only register `x` may differ. -/
def OtherRegsSame (x : Reg) (s t : State) : Prop := ∀ y, y ≠ x → t.readReg y = s.readReg y

/-- What an encoder write command must validate and the bytes it must write, transcribed from 44_encoder.md R165 to R173. -/
def encoderRow : Command → Option (List Byte × List Byte)
  | .writeMovToReg r imm => some ([r], [0x00#8, r, BitVec.ofNat 8 (imm.toNat % 256), BitVec.ofNat 8 (imm.toNat / 256)])
  | .writeMovToRam addr r => some ([r], [0x01#8, BitVec.ofNat 8 (addr.toNat % 256), BitVec.ofNat 8 (addr.toNat / 256), r])
  | .writeMovFromRam r addr => some ([r], [0x02#8, r, BitVec.ofNat 8 (addr.toNat % 256), BitVec.ofNat 8 (addr.toNat / 256)])
  | .writeDumpreg => some ([], [0x03#8])
  | .writeAdd d s => some ([d, s], [0x04#8, BitVec.ofNat 8 (16 * d.toNat + s.toNat)])
  | .writeSub d s => some ([d, s], [0x05#8, BitVec.ofNat 8 (16 * d.toNat + s.toNat)])
  | .writeInc r => some ([r], [0x06#8, r])
  | .writeDec r => some ([r], [0x07#8, r])
  | .writeRet => some ([], [0x08#8])
  | _ => none

/-- Every register code is 0 or 1. -/
def AllValid (codes : List Byte) : Prop := ∀ c ∈ codes, c.toNat < 2

/-- The destination register an instruction may write (10_state.md R22). -/
def destination : Instr → Option Reg
  | .movToReg r _ => if r.toNat = 0 then some .A else if r.toNat = 1 then some .B else none
  | .movFromRam r _ => if r.toNat = 0 then some .A else if r.toNat = 1 then some .B else none
  | .add d _ => if d.toNat = 0 then some .A else if d.toNat = 1 then some .B else none
  | .sub d _ => if d.toNat = 0 then some .A else if d.toNat = 1 then some .B else none
  | .inc r => if r.toNat = 0 then some .A else if r.toNat = 1 then some .B else none
  | .dec r => if r.toNat = 0 then some .A else if r.toNat = 1 then some .B else none
  | .movToRam _ _ => none
  | .dumpreg => none
  | .ret => none

/-- Instructions that read or write registers only. -/
def RegisterOnly : Instr → Prop
  | .movToReg _ _ => True
  | .movFromRam _ _ => True
  | .add _ _ => True
  | .sub _ _ => True
  | .inc _ => True
  | .dec _ => True
  | .movToRam _ _ => False
  | .dumpreg => False
  | .ret => False

/-- How a handler other than Ret's leaves the run: still in progress with no reply, counted and traced, or aborted with one
failed reply and no trace record (the latter is the spec's decision D14, log 19). -/
def RunGoesOnOrAborts (i : Instr) (s t : State) : Prop :=
  (t.runState = s.runState ∧ t.replies = s.replies ∧ t.freeCtr = s.freeCtr ∧ t.icount = s.icount + 1 ∧
    t.trace = traced s i) ∨
  (t.runState = .idle ∧ (∃ e, t.replies = s.replies ++ [⟨.failed e, .nothing⟩]) ∧ t.trace = s.trace)

/-- The state with the debug tracer's configuration and stream blanked. -/
def withoutTracer (s : State) : State := { s with cfg := { s.cfg with dbgEn := false }, trace := [] }

end Sys2Proof.Claims

open Sys2Proof Sys2Proof.Machine Sys2Proof.Claims

/-! ## Encoding -/

/-- Words written out byte by byte from the formats of 30_encoding.md section 2 (and 95_test_vectors.md S4) decode to the
instructions they stand for. -/
def Obligations.WrittenOutWordsDecode : Prop :=
  decode [0x00#8, 0x01#8, 0xFF#8, 0xFF#8] = .instr (.movToReg 0x01#8 65535#16) [] ∧
  decode [0x01#8, 0xFF#8, 0x1F#8, 0x01#8] = .instr (.movToRam 8191#16 0x01#8) [] ∧
  decode [0x02#8, 0x01#8, 0xFF#8, 0x1F#8] = .instr (.movFromRam 0x01#8 8191#16) [] ∧
  decode [0x03#8] = .instr .dumpreg [] ∧
  decode [0x04#8, 0x10#8] = .instr (.add 0x1#4 0x0#4) [] ∧
  decode [0x05#8, 0x01#8] = .instr (.sub 0x0#4 0x1#4) [] ∧
  decode [0x06#8, 0x01#8] = .instr (.inc 0x01#8) [] ∧
  decode [0x07#8, 0x00#8] = .instr (.dec 0x00#8) [] ∧
  decode [0x08#8] = .instr .ret []

/-- 30_encoding.md section 7: decoding an encoded instruction gives it back with every operand at every value, whatever
bytes follow; so a run at its bytes executes exactly that instruction; and an address CAP-1, decoded exactly, then raises
OutOfBounds when executed. IP after that abort is the spec's decision D5 (log 15), that it leaves no trace record its
decision D14 (log 19). -/
def Obligations.EncodedInstructionDecodesToItself : Prop :=
  (∀ i rest, decode (encode i ++ rest) = .instr i rest) ∧
  (∀ (s : State) (i : Instr), s.Inv → s.runState = .running → encode i <+: s.bytesAtIp →
    step s = exec i { s with ip := s.ip + BitVec.ofNat 16 i.length }) ∧
  ∀ s : State, s.cfg.WF → ∀ (addr : Word) (x : Reg), addr.toNat = s.cfg.cap - 1 →
    ExecAborts (.movToRam addr (codeOf x)) s .outOfBounds ∧ ExecAborts (.movFromRam (codeOf x) addr) s .outOfBounds

/-- 30_encoding.md section 1: there are no alternative encodings; bytes that decode are the encoding of what they decode to. -/
def Obligations.DecodedBytesAreTheEncoding : Prop :=
  ∀ bytes i rest, decode bytes = .instr i rest → bytes = encode i ++ rest

/-- 30_encoding.md section 5: a decode attempt stops only at an unknown opcode byte, one byte consumed, or because the bytes
end inside an instruction. -/
def Obligations.DecoderStopsOnlyForTwoReasons : Prop :=
  ∀ bytes e rest, decode bytes = .stop e rest →
    (e = .unknownOpcode ∧ ∃ op : Byte, bytes = op :: rest ∧ 9 ≤ op.toNat) ∨
    (e = .missingByte ∧ ∃ i, bytes.length < (encode i).length ∧ bytes <+: encode i)

/-- 30_encoding.md R83, whole: the opcode byte, all eight bits compared, selects the instruction, its trace mnemonic, its
format and its length. -/
def Obligations.OpcodeByteSelectsInstruction : Prop :=
  (∀ (x y z : Byte) (rest : List Byte),
    decode (0x00#8 :: x :: y :: z :: rest) = .instr (.movToReg x (joinBytes y z)) rest ∧
    decode (0x01#8 :: x :: y :: z :: rest) = .instr (.movToRam (joinBytes x y) z) rest ∧
    decode (0x02#8 :: x :: y :: z :: rest) = .instr (.movFromRam x (joinBytes y z)) rest ∧
    decode (0x03#8 :: rest) = .instr .dumpreg rest ∧
    decode (0x04#8 :: x :: rest) = .instr (.add (highNibble x) (lowNibble x)) rest ∧
    decode (0x05#8 :: x :: rest) = .instr (.sub (highNibble x) (lowNibble x)) rest ∧
    decode (0x06#8 :: x :: rest) = .instr (.inc x) rest ∧
    decode (0x07#8 :: x :: rest) = .instr (.dec x) rest ∧
    decode (0x08#8 :: rest) = .instr .ret rest) ∧
  (∀ (op : Byte) (rest : List Byte), 9 ≤ op.toNat → decode (op :: rest) = .stop .unknownOpcode rest) ∧
  [0x00#8, 0x01#8, 0x02#8, 0x03#8, 0x04#8, 0x05#8, 0x06#8, 0x07#8, 0x08#8].map opcodeName =
    ["mov_to_reg", "mov_to_ram", "mov_from_ram", "dumpreg", "add", "sub", "inc", "dec", "ret"] ∧
  (∀ (r : Byte) (w : Word) (d s : BitVec 4),
    [Instr.movToReg r w, .movToRam w r, .movFromRam r w, .dumpreg, .add d s, .sub d s, .inc r, .dec r, .ret].map Instr.length =
      [4, 4, 4, 1, 2, 2, 2, 2, 1])

/-- 30_encoding.md R85, whole: the pair byte's high nibble is the destination code and its low nibble the source code; 0
selects A, 1 selects B, 2 to 15 are invalid; exactly four bytes are valid; the encoder forms `16 * dst + src`. -/
def Obligations.RegisterPairFieldIsTwoNibbles : Prop :=
  (∀ (p : Byte) (rest : List Byte), ∃ d s : BitVec 4, d.toNat = p.toNat / 16 ∧ s.toNat = p.toNat % 16 ∧
    decode (0x04#8 :: p :: rest) = .instr (.add d s) rest ∧ decode (0x05#8 :: p :: rest) = .instr (.sub d s) rest ∧
    ((Instr.add d s).wf = true ↔ p = 0x00#8 ∨ p = 0x01#8 ∨ p = 0x10#8 ∨ p = 0x11#8) ∧
    ((Instr.sub d s).wf = true ↔ p = 0x00#8 ∨ p = 0x01#8 ∨ p = 0x10#8 ∨ p = 0x11#8)) ∧
  (∀ n : BitVec 4, regCheck (nibbleCode n) =
    if n.toNat = 0 then .ok .A else if n.toNat = 1 then .ok .B else .error .invalidRegister) ∧
  (∀ d s : BitVec 4, ∃ q : Byte, q.toNat = 16 * d.toNat + s.toNat ∧
    encode (.add d s) = [0x04#8, q] ∧ encode (.sub d s) = [0x05#8, q])

/-- 30_encoding.md section 4: a 16-bit operand is `byte_lo + 256 * byte_hi`, used as it stands; every pattern is a valid
immediate and a well-formed address; an address is the index of the word's first cell, and whether it lies inside memory is
checked only when the instruction executes. IP after that abort is the spec's decision D5 (log 15), that it leaves no trace
record its decision D14 (log 19). -/
def Obligations.WordOperandsAreLittleEndian : Prop :=
  (∀ (r lo hi : Byte) (rest : List Byte), ∃ w : Word, w.toNat = lo.toNat + 256 * hi.toNat ∧
    decode (0x00#8 :: r :: lo :: hi :: rest) = .instr (.movToReg r w) rest ∧
    decode (0x01#8 :: lo :: hi :: r :: rest) = .instr (.movToRam w r) rest ∧
    decode (0x02#8 :: r :: lo :: hi :: rest) = .instr (.movFromRam r w) rest) ∧
  (∀ (x : Reg) (w : Word), (Instr.movToReg (codeOf x) w).wf = true ∧ (Instr.movToRam w (codeOf x)).wf = true ∧
    (Instr.movFromRam (codeOf x) w).wf = true) ∧
  (∀ (s : State) (x : Reg) (w : Word), s.Inv →
    ExecCompletes (.movToReg (codeOf x) w) s (fun t => t.readReg x = w) ∧
    (w.toNat + 2 ≤ s.cfg.cap →
      ExecCompletes (.movToRam w (codeOf x)) s (fun t => t.byteAt w.toNat = loByte (s.readReg x)) ∧
      ExecCompletes (.movFromRam (codeOf x) w) s (fun t => loByte (t.readReg x) = s.byteAt w.toNat)) ∧
    (s.cfg.cap < w.toNat + 2 →
      ExecAborts (.movToRam w (codeOf x)) s .outOfBounds ∧ ExecAborts (.movFromRam (codeOf x) w) s .outOfBounds))

/-! ## Memory -/

/-- 20_memory.md R52 and R53, whole: the byte primitives. -/
def Obligations.ByteAccessPrimitives : Prop :=
  ∀ (cap : Nat) (m : Memory) (addr : Nat) (v : Byte), Memory.wf m →
    (cap ≤ addr → Memory.readByte cap m addr = .error .outOfBounds ∧
      Memory.writeByte cap m addr v = .error .outOfBounds) ∧
    (addr < cap → Memory.readByte cap m addr = .ok (Memory.get m addr) ∧
      ∃ m', Memory.writeByte cap m addr v = .ok m' ∧ Memory.get m' addr = v ∧
        ∀ a, a ≠ addr → Memory.get m' a = Memory.get m a)

/-- 20_memory.md R54 and R55, whole: the word primitives, little-endian, both cells or neither. -/
def Obligations.WordAccessPrimitives : Prop :=
  ∀ (cap : Nat) (m : Memory) (addr : Nat) (v : Word), Memory.wf m →
    (cap < addr + 2 → Memory.readWord cap m addr = .error .outOfBounds ∧
      Memory.writeWord cap m addr v = .error .outOfBounds) ∧
    (addr + 2 ≤ cap →
      (∃ w, Memory.readWord cap m addr = .ok w ∧
        w.toNat = (Memory.get m addr).toNat + 256 * (Memory.get m (addr + 1)).toNat) ∧
      ∃ m', Memory.writeWord cap m addr v = .ok m' ∧
        (Memory.get m' addr).toNat = v.toNat % 256 ∧ (Memory.get m' (addr + 1)).toNat = v.toNat / 256 ∧
        ∀ a, a ≠ addr → a ≠ addr + 1 → Memory.get m' a = Memory.get m a)

/-- 20_memory.md section 9, the laws a model must satisfy: a read after a write of the same width gives what was written, and
every cell outside the written ones keeps its value. (The byte law is marked in the spec as derived there.) -/
def Obligations.ReadAfterWriteLaws : Prop :=
  (∀ cap m m' addr (w : Word), Memory.wf m → Memory.writeWord cap m addr w = .ok m' →
    Memory.readWord cap m' addr = .ok w ∧ ∀ a, a < addr ∨ addr + 2 ≤ a → Memory.readByte cap m' a = Memory.readByte cap m a) ∧
  (∀ cap m m' addr (v : Byte), Memory.wf m → Memory.writeByte cap m addr v = .ok m' →
    Memory.readByte cap m' addr = .ok v ∧ ∀ a, a ≠ addr → Memory.readByte cap m' a = Memory.readByte cap m a)

/-- 20_memory.md section 3, mixed-width access (marked in the spec as derived): a word write is seen by byte reads, two byte
writes by a word read, and words at `a` and `a+1` overlap in the cell `a+1`. -/
def Obligations.MixedWidthAccessSeesTheCells : Prop :=
  (∀ cap m m' a (v : Word), Memory.wf m → Memory.writeWord cap m a v = .ok m' →
    Memory.readByte cap m' a = .ok (loByte v) ∧ Memory.readByte cap m' (a + 1) = .ok (hiByte v) ∧
    (a + 3 ≤ cap → Memory.readWord cap m' (a + 1) = .ok (littleEndian (hiByte v) (Memory.get m (a + 2))))) ∧
  (∀ cap m m1 m2 a (lo hi : Byte), Memory.wf m → Memory.writeByte cap m a lo = .ok m1 →
    Memory.writeByte cap m1 (a + 1) hi = .ok m2 → Memory.readWord cap m2 a = .ok (littleEndian lo hi))

/-- 20_memory.md R66 and R67, whole: `clear` zeroes every cell; `asBytes` yields the CAP cells in order. -/
def Obligations.ClearAndAsBytesActOnTheWholeArray : Prop :=
  (∀ a, Memory.get Memory.clear a = 0x00#8) ∧
  (∀ cap m, (Memory.asBytes cap m).length = cap ∧ ∀ a, a < cap → (Memory.asBytes cap m)[a]? = some (Memory.get m a))

/-- The model's canonical form: two canonical memories that read alike everywhere are equal data (10_state.md section 2; the
form is the model's own, log 5 and INVENTORY.md). -/
def Obligations.CanonicalMemoriesThatReadAlikeAreEqual : Prop :=
  ∀ m m' : Memory, Memory.wf m → Memory.wf m' → (∀ a, Memory.get m a = Memory.get m' a) → m = m'

/-! ## The controller -/

/-- 40_fde_loop.md section 2: where the bytes at IP decode to `i`, the step is the handler of `i` in the state with IP past
the instruction (log 12). -/
def Obligations.StepRunsTheDecodedInstruction : Prop :=
  ∀ (s : State) (i : Instr) (rest : List Byte), s.Inv → s.runState = .running → decode s.bytesAtIp = .instr i rest →
    step s = exec i { s with ip := s.ip + BitVec.ofNat 16 i.length }

/-- 40_fde_loop.md sections 2 and 5, 60_exceptions.md section 3: where decoding stops, the step aborts the run with the
matching error and IP at the first byte or word that was not consumed. The value of IP is the spec's decisions D5 and D20
(log 15), that a handler without all its operand bytes leaves no trace record its decision D14 (log 19). -/
def Obligations.StepAbortsWhereDecodingStops : Prop :=
  ∀ (s : State) (e : DecodeError) (rest : List Byte), s.Inv → s.runState = .running → decode s.bytesAtIp = .stop e rest →
    StepAborts s (s.cfg.cap - rest.length) (match e with | .missingByte => .outOfBounds | .unknownOpcode => .unknownOpcode)

/-- 30_encoding.md R87 and 60_exceptions.md R203, whole: each of the bytes 0x09 to 0xFF as an opcode raises UnknownOpcode,
IP at its address plus 1, nothing else changed; and UnknownOpcode is raised nowhere else. -/
def Obligations.UnknownOpcodeAbortsAndNothingElseRaisesIt : Prop :=
  (∀ (s : State) (op : Byte), AtOpcode s op → 0x09 ≤ op.toNat → StepAborts s (s.ip.toNat + 1) .unknownOpcode) ∧
  (∀ (s t : State) (v : Value), s.Inv → step s = .next t → t.replies = s.replies ++ [⟨.failed .unknownOpcode, v⟩] →
    s.runState = .running ∧ s.ip.toNat < s.cfg.cap ∧ 0x09 ≤ (s.byteAt s.ip.toNat).toNat)

/-- 40_fde_loop.md R114, whole: after an instruction at address `a` of length `L` completes, `ip = a + L`, so IP points at the
next opcode; after Ret, `ip = 0`. (An instruction other than Ret completed where the run is still in progress.) -/
def Obligations.IpPointsPastTheInstruction : Prop :=
  ∀ (s t : State) (i : Instr) (rest : List Byte), s.Inv → s.runState = .running → decode s.bytesAtIp = .instr i rest →
    step s = .next t → (i = .ret ∨ t.runState = .running) →
    t.ip.toNat = if i = .ret then 0 else s.ip.toNat + (encode i).length

/-- 41_data_movement.md, MovToReg, every outcome of its step in checking order. IP after an abort is the spec's decision D5
(log 15), that TRACE is unchanged by it its decision D14 (log 19). -/
def Obligations.MovToRegStepOutcomes : Prop :=
  ∀ s : State, AtOpcode s 0x00#8 →
    (s.cfg.cap ≤ s.ip.toNat + 1 → StepAborts s (s.ip.toNat + 1) .outOfBounds) ∧
    (s.ip.toNat + 1 < s.cfg.cap → s.cfg.cap < s.ip.toNat + 4 → StepAborts s (s.ip.toNat + 2) .outOfBounds) ∧
    (s.ip.toNat + 4 ≤ s.cfg.cap →
      (2 ≤ (s.byteAt (s.ip.toNat + 1)).toNat → StepAborts s (s.ip.toNat + 4) .invalidRegister) ∧
      ∀ x imm, s.byteAt (s.ip.toNat + 1) = codeOf x →
        imm = littleEndian (s.byteAt (s.ip.toNat + 2)) (s.byteAt (s.ip.toNat + 3)) →
        StepCompletes s (.movToReg (codeOf x) imm) (s.ip.toNat + 4) fun t =>
          t.readReg x = imm ∧ OtherRegsSame x s t ∧ SameMemory s t ∧ t.out = s.out)

/-- 41_data_movement.md, MovToRam, every outcome of its step in checking order. IP after an abort is the spec's decision D5
(log 15), that TRACE is unchanged by it its decision D14 (log 19), the register code before the data address its decision D6
(log 16). -/
def Obligations.MovToRamStepOutcomes : Prop :=
  ∀ s : State, AtOpcode s 0x01#8 →
    (s.cfg.cap < s.ip.toNat + 3 → StepAborts s (s.ip.toNat + 1) .outOfBounds) ∧
    (s.ip.toNat + 3 = s.cfg.cap → StepAborts s (s.ip.toNat + 3) .outOfBounds) ∧
    (s.ip.toNat + 4 ≤ s.cfg.cap →
      (2 ≤ (s.byteAt (s.ip.toNat + 3)).toNat → StepAborts s (s.ip.toNat + 4) .invalidRegister) ∧
      ∀ x addr, s.byteAt (s.ip.toNat + 3) = codeOf x →
        addr = littleEndian (s.byteAt (s.ip.toNat + 1)) (s.byteAt (s.ip.toNat + 2)) →
        (s.cfg.cap < addr.toNat + 2 → StepAborts s (s.ip.toNat + 4) .outOfBounds) ∧
        (addr.toNat + 2 ≤ s.cfg.cap →
          StepCompletes s (.movToRam addr (codeOf x)) (s.ip.toNat + 4) fun t =>
            (t.byteAt addr.toNat).toNat = (s.readReg x).toNat % 256 ∧
            (t.byteAt (addr.toNat + 1)).toNat = (s.readReg x).toNat / 256 ∧
            SameMemoryOutside s t addr.toNat 2 ∧ t.a = s.a ∧ t.b = s.b ∧ t.out = s.out))

/-- 41_data_movement.md, MovFromRam, every outcome of its step in checking order. IP after an abort is the spec's decision D5
(log 15), that TRACE is unchanged by it its decision D14 (log 19), the register code before the data address its decision D6
(log 16). -/
def Obligations.MovFromRamStepOutcomes : Prop :=
  ∀ s : State, AtOpcode s 0x02#8 →
    (s.cfg.cap ≤ s.ip.toNat + 1 → StepAborts s (s.ip.toNat + 1) .outOfBounds) ∧
    (s.ip.toNat + 1 < s.cfg.cap → s.cfg.cap < s.ip.toNat + 4 → StepAborts s (s.ip.toNat + 2) .outOfBounds) ∧
    (s.ip.toNat + 4 ≤ s.cfg.cap →
      (2 ≤ (s.byteAt (s.ip.toNat + 1)).toNat → StepAborts s (s.ip.toNat + 4) .invalidRegister) ∧
      ∀ x addr, s.byteAt (s.ip.toNat + 1) = codeOf x →
        addr = littleEndian (s.byteAt (s.ip.toNat + 2)) (s.byteAt (s.ip.toNat + 3)) →
        (s.cfg.cap < addr.toNat + 2 → StepAborts s (s.ip.toNat + 4) .outOfBounds) ∧
        (addr.toNat + 2 ≤ s.cfg.cap →
          StepCompletes s (.movFromRam (codeOf x) addr) (s.ip.toNat + 4) fun t =>
            t.readReg x = littleEndian (s.byteAt addr.toNat) (s.byteAt (addr.toNat + 1)) ∧
            OtherRegsSame x s t ∧ SameMemory s t ∧ t.out = s.out))

/-- 42_arithmetic.md section 2, Add and Sub, every outcome of their steps. Wrapping is the spec's decision D7 (log 17), IP
after an abort its decision D5 (log 15), that TRACE is unchanged by it its decision D14 (log 19). -/
def Obligations.AddAndSubStepOutcomes : Prop :=
  ∀ s : State, AtOpcode s 0x04#8 ∨ AtOpcode s 0x05#8 →
    (s.cfg.cap ≤ s.ip.toNat + 1 → StepAborts s (s.ip.toNat + 1) .outOfBounds) ∧
    (s.ip.toNat + 2 ≤ s.cfg.cap →
      (2 ≤ (s.byteAt (s.ip.toNat + 1)).toNat / 16 ∨ 2 ≤ (s.byteAt (s.ip.toNat + 1)).toNat % 16 →
        StepAborts s (s.ip.toNat + 2) .invalidRegister) ∧
      ∀ d src, (s.byteAt (s.ip.toNat + 1)).toNat = 16 * (codeOf d).toNat + (codeOf src).toNat →
        (AtOpcode s 0x04#8 → StepCompletes s (.add (nibbleOf d) (nibbleOf src)) (s.ip.toNat + 2) fun t =>
          (t.readReg d).toNat = ((s.readReg d).toNat + (s.readReg src).toNat) % 65536 ∧
          OtherRegsSame d s t ∧ SameMemory s t ∧ t.out = s.out) ∧
        (AtOpcode s 0x05#8 → StepCompletes s (.sub (nibbleOf d) (nibbleOf src)) (s.ip.toNat + 2) fun t =>
          ((t.readReg d).toNat : Int) = ((s.readReg d).toNat - (s.readReg src).toNat : Int) % 65536 ∧
          OtherRegsSame d s t ∧ SameMemory s t ∧ t.out = s.out))

/-- 42_arithmetic.md section 3, Inc and Dec, every outcome of their steps. IP after an abort is the spec's decision D5
(log 15), that TRACE is unchanged by it its decision D14 (log 19). -/
def Obligations.IncAndDecStepOutcomes : Prop :=
  ∀ s : State, AtOpcode s 0x06#8 ∨ AtOpcode s 0x07#8 →
    (s.cfg.cap ≤ s.ip.toNat + 1 → StepAborts s (s.ip.toNat + 1) .outOfBounds) ∧
    (s.ip.toNat + 2 ≤ s.cfg.cap →
      (2 ≤ (s.byteAt (s.ip.toNat + 1)).toNat → StepAborts s (s.ip.toNat + 2) .invalidRegister) ∧
      ∀ x, s.byteAt (s.ip.toNat + 1) = codeOf x →
        (AtOpcode s 0x06#8 → StepCompletes s (.inc (codeOf x)) (s.ip.toNat + 2) fun t =>
          (t.readReg x).toNat = ((s.readReg x).toNat + 1) % 65536 ∧
          OtherRegsSame x s t ∧ SameMemory s t ∧ t.out = s.out) ∧
        (AtOpcode s 0x07#8 → StepCompletes s (.dec (codeOf x)) (s.ip.toNat + 2) fun t =>
          ((t.readReg x).toNat : Int) = ((s.readReg x).toNat - 1 : Int) % 65536 ∧
          OtherRegsSame x s t ∧ SameMemory s t ∧ t.out = s.out))

/-- 43_system.md, Dumpreg and Ret, the one outcome of each step. The value of IP reported by Dumpreg is the opcode's address
plus 1 (90_conflicts.md C2). -/
def Obligations.DumpregAndRetStepOutcomes : Prop :=
  (∀ s : State, AtOpcode s 0x03#8 →
    StepCompletes s .dumpreg (s.ip.toNat + 1) fun t =>
      (∃ r : OutRecord, t.out = s.out ++ [r] ∧ r.a = s.a ∧ r.b = s.b ∧ r.ip.toNat = s.ip.toNat + 1) ∧
      t.a = s.a ∧ t.b = s.b ∧ SameMemory s t) ∧
  (∀ s : State, AtOpcode s 0x08#8 → ∃ t, step s = .next t ∧
    t = { s with ip := 0#16, runState := .idle, replies := s.replies ++ [⟨.ok, .nothing⟩],
                 trace := traced s .ret, icount := t.icount, freeCtr := t.freeCtr })

/-! ## The handlers -/

/-- 41_data_movement.md, MovToReg and MovFromRam: the handler completes with the register's new value (an immediate, a
little-endian word), whatever the value. -/
def Obligations.LoadsCompleteWithTheRegistersNewValue : Prop :=
  (∀ (s : State) (x : Reg) (imm : Word),
    ExecCompletes (.movToReg (codeOf x) imm) s fun t =>
      t.readReg x = imm ∧ OtherRegsSame x s t ∧ t.mem = s.mem ∧ t.out = s.out) ∧
  (∀ (s : State) (x : Reg) (addr : Word), addr.toNat + 2 ≤ s.cfg.cap →
    ExecCompletes (.movFromRam (codeOf x) addr) s fun t =>
      t.readReg x = littleEndian (s.byteAt addr.toNat) (s.byteAt (addr.toNat + 1)) ∧
      OtherRegsSame x s t ∧ t.mem = s.mem ∧ t.out = s.out)

/-- 41_data_movement.md, MovToRam: the handler completes with the register stored as a little-endian word at the address. -/
def Obligations.StoreCompletesWithALittleEndianWord : Prop :=
  ∀ (s : State) (x : Reg) (addr : Word), Memory.wf s.mem → cellIndex addr + 2 ≤ s.cfg.cap →
    ExecCompletes (.movToRam addr (codeOf x)) s fun t =>
      t.byteAt (cellIndex addr) = loByte (s.readReg x) ∧ t.byteAt (cellIndex addr + 1) = hiByte (s.readReg x) ∧
      SameMemoryOutside s t (cellIndex addr) 2 ∧ t.a = s.a ∧ t.b = s.b ∧ t.out = s.out

/-- 42_arithmetic.md: Add, Sub, Inc and Dec complete with the wrapped result in the destination, the source value being the one
before the write. Wrapping of Add and Sub is the spec's decision D7. -/
def Obligations.ArithmeticCompletesWithWrappedResults : Prop :=
  ∀ (s : State) (d src : Reg),
    ExecCompletes (.add (nibbleOf d) (nibbleOf src)) s (fun t =>
      (t.readReg d).toNat = ((s.readReg d).toNat + (s.readReg src).toNat) % 65536 ∧
      OtherRegsSame d s t ∧ t.mem = s.mem ∧ t.out = s.out) ∧
    ExecCompletes (.sub (nibbleOf d) (nibbleOf src)) s (fun t =>
      ((t.readReg d).toNat : Int) = ((s.readReg d).toNat - (s.readReg src).toNat : Int) % 65536 ∧
      OtherRegsSame d s t ∧ t.mem = s.mem ∧ t.out = s.out) ∧
    ExecCompletes (.inc (codeOf d)) s (fun t =>
      (t.readReg d).toNat = ((s.readReg d).toNat + 1) % 65536 ∧ OtherRegsSame d s t ∧ t.mem = s.mem ∧ t.out = s.out) ∧
    ExecCompletes (.dec (codeOf d)) s (fun t =>
      ((t.readReg d).toNat : Int) = ((s.readReg d).toNat - 1 : Int) % 65536 ∧
      OtherRegsSame d s t ∧ t.mem = s.mem ∧ t.out = s.out)

/-- 43_system.md section on Dumpreg: the handler completes, its only effect one record of A, B and IP on OUT, whatever
DBG_EN. -/
def Obligations.DumpregCompletesWithOneRecord : Prop :=
  ∀ s : State, exec .dumpreg s =
    .next { s with out := s.out ++ [⟨s.a, s.b, s.ip⟩], icount := s.icount + 1, trace := traced s .dumpreg }

/-- 43_system.md R151, whole: Ret, the byte 0x08, halts: the run ends with status OK, IP = 0, Idle; A, B and memory are
unchanged; it raises no error. -/
def Obligations.RetHaltsTheRun : Prop :=
  encode .ret = [0x08#8] ∧
  ∀ s : State, ∃ t, exec .ret s = .next t ∧ t.runState = .idle ∧ t.ip = 0#16 ∧
    t.replies = s.replies ++ [⟨.ok, .nothing⟩] ∧ t.a = s.a ∧ t.b = s.b ∧ SameMemory s t ∧
    t.out = s.out ∧ t.trace = traced s .ret ∧ t.cfg = s.cfg ∧ t.commands = s.commands

/-- 60_exceptions.md sections 1 to 3: every site that raises InvalidRegister: the seven instructions with register operands,
the encoder writes and the register port; no register and no memory cell is changed. That the code is reported before a bad
data address or lack of room is the spec's decisions D6 and D9 (log 16); IP after the abort, and unchanged after a failed
encoder write or port operation, its decisions D5 and D8 (log 15); that an abort leaves TRACE unchanged its decision D14
(log 19); that the host can use the register port its decision D18. -/
def Obligations.InvalidRegisterCodesAreRefusedEverywhere : Prop :=
  (∀ (s : State) (r : Byte), 2 ≤ r.toNat → ∀ (w : Word) (i : Instr),
    i ∈ [Instr.movToReg r w, .movToRam w r, .movFromRam r w, .inc r, .dec r] → ExecAborts i s .invalidRegister) ∧
  (∀ (s : State) (d src : BitVec 4), 2 ≤ d.toNat ∨ 2 ≤ src.toNat →
    ExecAborts (.add d src) s .invalidRegister ∧ ExecAborts (.sub d src) s .invalidRegister) ∧
  (∀ (s : State) (c : Command) (rest : List Command) (codes bytes : List Byte), Serving s c rest →
    encoderRow c = some (codes, bytes) → ¬ AllValid codes →
    ∃ t, step s = .next t ∧ Replied s t rest (.failed .invalidRegister) .nothing ∧ SameCore s t ∧ SameStreams s t) ∧
  (∀ (s : State) (c : Command) (rest : List Command) (r : Byte) (v : Word), Serving s c rest → 2 ≤ r.toNat →
    c ∈ [Command.get r, .set r v, .increment r, .decrement r, .name r] →
    ∃ t, step s = .next t ∧ Replied s t rest (.failed .invalidRegister) .nothing ∧ SameCore s t ∧ SameStreams s t)

/-- 41_data_movement.md and 20_memory.md section 2: a data address whose word does not lie inside memory raises OutOfBounds,
nothing is stored or loaded, and nothing wraps to low memory. The abort is that of 60_exceptions.md section 3 and
40_fde_loop.md section 5: its IP is the spec's decision D5 (log 15), that TRACE is unchanged by it its decision D14 (log 19). -/
def Obligations.DataAddressOutsideMemoryAborts : Prop :=
  ∀ (s : State) (x : Reg) (addr : Word), s.cfg.cap < addr.toNat + 2 →
    ExecAborts (.movToRam addr (codeOf x)) s .outOfBounds ∧ ExecAborts (.movFromRam (codeOf x) addr) s .outOfBounds

/-- Frame of the six register instructions (10_state.md section 3; 41_data_movement.md; 42_arithmetic.md): only the
destination register, ICOUNT and TRACE may change when they complete; on an abort (60_exceptions.md section 3; 40_fde_loop.md
section 5) no register does. That an abort leaves no trace record is the spec's decision D14 (log 19), its IP the decision D5
(log 15). -/
def Obligations.RegisterInstructionsFrame : Prop :=
  ∀ (i : Instr) (s t : State), RegisterOnly i → exec i s = .next t →
    (∀ x, destination i ≠ some x → t.readReg x = s.readReg x) ∧ SameMemory s t ∧
    t.ip = s.ip ∧ t.out = s.out ∧ t.cfg = s.cfg ∧ t.commands = s.commands ∧ RunGoesOnOrAborts i s t ∧
    (t.runState = .idle → s.runState = .running → t.a = s.a ∧ t.b = s.b)

/-- Frame of MovToRam (41_data_movement.md): every byte outside the two stored ones, every register, IP and OUT are
unchanged; on an abort (60_exceptions.md section 3; 40_fde_loop.md section 5) every byte is. That an abort leaves no trace
record is the spec's decision D14 (log 19), its IP the decision D5 (log 15). -/
def Obligations.StoreFrame : Prop :=
  ∀ (s t : State) (addr : Word) (r : Byte), exec (.movToRam addr r) s = .next t →
    SameMemoryOutside s t (cellIndex addr) 2 ∧ t.a = s.a ∧ t.b = s.b ∧ t.ip = s.ip ∧ t.out = s.out ∧
    t.cfg = s.cfg ∧ t.commands = s.commands ∧ RunGoesOnOrAborts (.movToRam addr r) s t ∧
    (t.runState = .idle → s.runState = .running → SameMemory s t)

/-- Frame of Dumpreg and Ret (43_system.md): registers and every byte of memory are unchanged; Dumpreg leaves IP and the run
as they are, Ret leaves OUT as it is. -/
def Obligations.SystemInstructionsFrame : Prop :=
  ∀ (i : Instr) (s t : State), i = .dumpreg ∨ i = .ret → exec i s = .next t →
    t.a = s.a ∧ t.b = s.b ∧ SameMemory s t ∧ t.cfg = s.cfg ∧ t.commands = s.commands ∧ t.trace = traced s i ∧
    (i = .dumpreg → t.ip = s.ip ∧ t.runState = s.runState ∧ t.replies = s.replies ∧ t.freeCtr = s.freeCtr) ∧
    (i = .ret → t.out = s.out)

/-! ## The whole machine -/

/-- Every step keeps the invariant: CAP in range, memory canonical and inside `[0, CAP)`, `0 <= IP <= CAP`
(10_state.md section 4), RUNSTATE never left in Halted (10_state.md section 5). -/
def Obligations.EveryStepKeepsTheInvariant : Prop :=
  ∀ s t : State, s.Inv → step s = .next t → t.Inv

/-- The state after reset, and power-on of any instance whose CAP is in range, meet the invariant. -/
def Obligations.ResetMeetsTheInvariant : Prop :=
  State.reset.Inv ∧ ∀ cfg : Config, cfg.WF → (State.powerOn cfg).Inv

/-- 10_state.md section 8: what reset leaves. ICOUNT is not among it: its reset value is the model's choice (log 6). -/
def Obligations.ResetLeavesTheStatedValues : Prop :=
  (∀ a, State.reset.byteAt a = 0x00#8) ∧ State.reset.a = 0#16 ∧ State.reset.b = 0#16 ∧ State.reset.ip = 0#16 ∧
  State.reset.runState = .idle ∧ State.reset.out = [] ∧ State.reset.trace = [] ∧
  State.reset.cfg.cap = 8192 ∧ State.reset.cfg.dbgEn = false ∧ State.reset.cfg.traceSep = ", "

/-- A machine whose CAP is in range never stops: every step answers a next state (60_exceptions.md section 3: an error ends
the command and the instance lives on). Outside that range the model faults, its own choice (log 3). -/
def Obligations.NoStepStopsTheMachine : Prop :=
  ∀ s : State, (s.cfg.WF → ∃ t, step s = .next t) ∧ (¬ s.cfg.WF → step s = .fault .capacityOutOfRange)

/-- 10_state.md section 1: configuration is not state, and no instruction or command changes it. -/
def Obligations.NoStepChangesTheConfiguration : Prop :=
  ∀ s t : State, step s = .next t → t.cfg = s.cfg

/-- 10_state.md section 5: the output streams are append-only; so is the list of replies (log 5). -/
def Obligations.StreamsOnlyGrow : Prop :=
  ∀ s t : State, step s = .next t → s.out <+: t.out ∧ s.trace <+: t.trace ∧ s.replies <+: t.replies

/-- 10_state.md section 5, 45_host_commands.md section 1: every command completes with exactly one status. A step leaves a run
in progress with no reply, or leaves the core Idle with one reply more; only an idle core without a command does neither. -/
def Obligations.EveryCommandCompletesWithOneStatus : Prop :=
  ∀ s t : State, s.Inv → step s = .next t →
    (t.runState = .running ∧ t.replies = s.replies) ∨
    (t.runState = .idle ∧ ∃ r, t.replies = s.replies ++ [r]) ∨
    (s.runState = .idle ∧ s.commands = [] ∧ t = s)

/-- 60_exceptions.md section 3 (precise errors, marked in the spec as derived): a step of a run that ends in an error has had
no effect on A, B, memory or the streams, and the core is Idle. That a failing instruction leaves TRACE unchanged is the
spec's decision D14 (log 19), where IP stands its decisions D5 and D20 (log 15). -/
def Obligations.ErrorsInARunArePrecise : Prop :=
  ∀ (s t : State) (e : ErrorKind) (v : Value), s.Inv → s.runState = .running → step s = .next t →
    t.replies = s.replies ++ [⟨.failed e, v⟩] →
    t.a = s.a ∧ t.b = s.b ∧ SameMemory s t ∧ SameStreams s t ∧ t.runState = .idle ∧
    e ∈ [ErrorKind.outOfBounds, .invalidRegister, .unknownOpcode] ∧ s.ip.toNat ≤ t.ip.toNat

/-- 60_exceptions.md R204, whole: IOError is raised by save and load, when the sink refuses a byte or the source ends before
CAP bytes, and never by a run, an encoder write or a port operation. -/
def Obligations.IoErrorComesFromSaveAndLoadOnly : Prop :=
  (∀ (s t : State) (v : Value), s.Inv → step s = .next t → t.replies = s.replies ++ [⟨.failed .ioError, v⟩] →
    s.runState = .idle ∧
    ((∃ k rest, s.commands = .save (some k) :: rest ∧ k < s.cfg.cap) ∨
     (∃ source rest, s.commands = .load source :: rest ∧ source.length < s.cfg.cap))) ∧
  (∀ (s : State) (k : Nat) (rest : List Command), Serving s (.save (some k)) rest → k < s.cfg.cap →
    ∃ t v, step s = .next t ∧ t.replies = s.replies ++ [⟨.failed .ioError, v⟩]) ∧
  (∀ (s : State) (source : List Byte) (rest : List Command), Serving s (.load source) rest → source.length < s.cfg.cap →
    ∃ t v, step s = .next t ∧ t.replies = s.replies ++ [⟨.failed .ioError, v⟩])

/-- 40_fde_loop.md section 4 (marked in the spec as derived): every run ends. After at most `CAP - ip` completed instructions
no run is still in progress, and one step more at most has ended it, with one reply. -/
def Obligations.EveryRunEndsWithinCapacity : Prop :=
  ∀ s : State, s.Inv → s.runState = .running →
    (∃ k t, k ≤ s.cfg.cap - s.ip.toNat + 1 ∧ s.runFor k = .next t ∧ t.runState = .idle ∧
      ∃ r, t.replies = s.replies ++ [r]) ∧
    (∀ n, (∀ k, k ≤ n → ∃ u, s.runFor k = .next u ∧ u.runState = .running) → n ≤ s.cfg.cap - s.ip.toNat)

/-- 60_exceptions.md section 6: the tracer feeds back into nothing. A step of a machine and the same step with the tracer off
leave states that differ in DBG_EN and TRACE alone. -/
def Obligations.TracerChangesNothingButTrace : Prop :=
  ∀ s t : State, step s = .next t →
    ∃ u, step (withoutTracer s) = .next u ∧ withoutTracer u = withoutTracer t

/-- 20_memory.md section 7 (marked in the spec as derived): a store is seen by the very next fetch. If the stored word lies at
IP, the next instruction is decoded from its bytes. -/
def Obligations.StoreIsSeenByTheNextFetch : Prop :=
  ∀ (s t : State) (x : Reg) (addr : Word), s.Inv → addr.toNat = s.ip.toNat → addr.toNat + 2 ≤ s.cfg.cap →
    exec (.movToRam addr (codeOf x)) s = .next t →
    ∃ rest, t.bytesAtIp = loByte (s.readReg x) :: hiByte (s.readReg x) :: rest

/-! ## The host's commands -/

/-- 70_reset_and_hazards.md section 1 and 60_exceptions.md section 5: an idle core without a command waits and loses nothing
(the command list is the model's, log 4). -/
def Obligations.IdleCoreWaitsForTheHost : Prop :=
  ∀ s : State, s.cfg.WF → s.runState = .idle → s.commands = [] → step s = .next s

/-- 40_fde_loop.md section 1: `run` sets IP and ICOUNT to 0, enters Running, and changes nothing else. -/
def Obligations.RunStartsAtAddressZero : Prop :=
  ∀ (s : State) (rest : List Command), Serving s .run rest →
    step s = .next { s with ip := 0#16, icount := 0, runState := .running, commands := rest }

/-- 45_host_commands.md R181, whole: `reset` clears memory, A, B and IP, stays Idle, keeps configuration and streams, cannot
fail, and leaves what power-on leaves. -/
def Obligations.ResetCommandReinitialisesTheCore : Prop :=
  ∀ (s : State) (rest : List Command), Serving s .reset rest →
    ∃ t, step s = .next t ∧ Replied s t rest .ok .nothing ∧ SameStreams s t ∧
      (∀ a, t.byteAt a = 0x00#8) ∧ t.a = 0#16 ∧ t.b = 0#16 ∧ t.ip = 0#16 ∧
      t.mem = (State.powerOn s.cfg).mem ∧ t.runState = (State.powerOn s.cfg).runState

/-- 45_host_commands.md section 3, `save` (that it changes no state is the spec's decision D23): the cells go to the sink in
order, all of them with status OK, or those the sink takes with IOError. -/
def Obligations.SaveSendsTheCellsAndChangesNothing : Prop :=
  ∀ (s : State) (accepts : Option Nat) (rest : List Command), Serving s (.save accepts) rest →
    ∃ t bytes, step s = .next t ∧ SameCore s t ∧ SameStreams s t ∧ t.icount = s.icount ∧
      (∀ a, a < bytes.length → bytes[a]? = some (s.byteAt a)) ∧
      ((∀ k, accepts = some k → s.cfg.cap ≤ k) → bytes.length = s.cfg.cap ∧ Replied s t rest .ok (.bytes bytes)) ∧
      (∀ k, accepts = some k → k < s.cfg.cap → bytes.length = k ∧ Replied s t rest (.failed .ioError) (.bytes bytes))

/-- 45_host_commands.md section 3, `load` (surplus bytes and memory after a failure are the spec's decision D16): reset, then
the first CAP bytes of the source; from a shorter source IOError, memory being unspecified. -/
def Obligations.LoadResetsAndReadsTheSource : Prop :=
  ∀ (s : State) (source : List Byte) (rest : List Command), Serving s (.load source) rest →
    ∃ t, step s = .next t ∧ t.a = 0#16 ∧ t.b = 0#16 ∧ t.ip = 0#16 ∧ SameStreams s t ∧
      (s.cfg.cap ≤ source.length → Replied s t rest .ok .nothing ∧
        ∀ a, a < s.cfg.cap → source[a]? = some (t.byteAt a)) ∧
      (source.length < s.cfg.cap → Replied s t rest (.failed .ioError) .nothing)

/-- 45_host_commands.md section 3: what `save` sent, `load` restores bit for bit in an instance of the same CAP, whose
registers and IP are then 0. (That `save` succeeds on a sink that refuses nothing is stated with it.) -/
def Obligations.SaveThenLoadRestoresMemory : Prop :=
  ∀ (s t s' t' : State) (rest rest' : List Command) (bytes : List Byte),
    Serving s (.save none) rest → step s = .next t → t.replies = s.replies ++ [⟨.ok, .bytes bytes⟩] →
    Serving s' (.load bytes) rest' → s'.cfg.cap = s.cfg.cap → step s' = .next t' →
    t'.mem = s.mem ∧ t'.a = 0#16 ∧ t'.b = 0#16 ∧ t'.ip = 0#16 ∧ t'.replies = s'.replies ++ [⟨.ok, .nothing⟩]

/-- 44_encoder.md R165 to R173, whole: each encoder write validates its register codes, writes the bytes the rule gives at the
cursor and advances it, or fails with InvalidRegister or OutOfBounds and writes nothing. -/
def Obligations.EncoderWritesTheBytesOfEachRule : Prop :=
  ∀ (s : State) (c : Command) (rest : List Command) (codes bytes : List Byte), Serving s c rest →
    encoderRow c = some (codes, bytes) →
    (AllValid codes → s.ip.toNat + bytes.length ≤ s.cfg.cap →
      ∃ t, step s = .next t ∧ Replied s t rest .ok .nothing ∧ SameStreams s t ∧
        (∀ k, k < bytes.length → bytes[k]? = some (t.byteAt (s.ip.toNat + k))) ∧
        SameMemoryOutside s t s.ip.toNat bytes.length ∧ t.ip.toNat = s.ip.toNat + bytes.length ∧
        t.a = s.a ∧ t.b = s.b ∧ t.icount = s.icount) ∧
    (¬ AllValid codes → s.ip.toNat + bytes.length ≤ s.cfg.cap →
      ∃ t, step s = .next t ∧ Replied s t rest (.failed .invalidRegister) .nothing ∧ SameMemory s t) ∧
    (AllValid codes → s.cfg.cap < s.ip.toNat + bytes.length →
      ∃ t, step s = .next t ∧ Replied s t rest (.failed .outOfBounds) .nothing ∧ SameMemory s t)

/-- 44_encoder.md section 1: a failed encoder write leaves memory and the cursor as they were (IP is the spec's decision D8),
and an invalid register code is reported before lack of space (its decision D9). -/
def Obligations.FailedEncoderWriteChangesNothing : Prop :=
  ∀ (s : State) (c : Command) (rest : List Command) (codes bytes : List Byte), Serving s c rest →
    encoderRow c = some (codes, bytes) → ¬ AllValid codes ∨ s.cfg.cap < s.ip.toNat + bytes.length →
    ∃ t e, step s = .next t ∧ Replied s t rest (.failed e) .nothing ∧ SameCore s t ∧ SameStreams s t ∧
      (¬ AllValid codes → e = .invalidRegister) ∧ (AllValid codes → e = .outOfBounds)

/-- 44_encoder.md section 1 with 30_encoding.md section 7: what an encoder write put at the cursor is what a fetch there
decodes: the instruction of that write, with its operands. -/
def Obligations.EncoderWriteIsDecodedBack : Prop :=
  ∀ (s t : State) (c : Command) (rest : List Command), Serving s c rest → step s = .next t →
    t.replies = s.replies ++ [⟨.ok, .nothing⟩] →
    ∀ i, (∃ r imm, c = .writeMovToReg r imm ∧ i = .movToReg r imm) ∨ (∃ addr r, c = .writeMovToRam addr r ∧ i = .movToRam addr r) ∨
        (∃ r addr, c = .writeMovFromRam r addr ∧ i = .movFromRam r addr) ∨ (c = .writeDumpreg ∧ i = .dumpreg) ∨
        (∃ d src, c = .writeAdd (codeOf d) (codeOf src) ∧ i = .add (nibbleOf d) (nibbleOf src)) ∨
        (∃ d src, c = .writeSub (codeOf d) (codeOf src) ∧ i = .sub (nibbleOf d) (nibbleOf src)) ∨
        (∃ r, c = .writeInc r ∧ i = .inc r) ∨ (∃ r, c = .writeDec r ∧ i = .dec r) ∨ (c = .writeRet ∧ i = .ret) →
      ∃ tail, decode { t with ip := s.ip }.bytesAtIp = .instr i tail

/-- 45_host_commands.md section 4, the register port (available to the host by the spec's decision D18): get, set, increment,
decrement and name on each register; the other register, memory and IP stay. -/
def Obligations.RegisterPortActsOnOneRegister : Prop :=
  ∀ (s : State) (x : Reg) (v : Word) (rest : List Command),
    (Serving s (.get (codeOf x)) rest →
      ∃ t, step s = .next t ∧ Replied s t rest .ok (.word (s.readReg x)) ∧ SameCore s t ∧ SameStreams s t) ∧
    (Serving s (.set (codeOf x) v) rest →
      ∃ t, step s = .next t ∧ Replied s t rest .ok .nothing ∧ t.readReg x = v ∧ OtherRegsSame x s t ∧
        SameMemory s t ∧ t.ip = s.ip ∧ SameStreams s t) ∧
    (Serving s (.increment (codeOf x)) rest →
      ∃ t, step s = .next t ∧ Replied s t rest .ok .nothing ∧ (t.readReg x).toNat = ((s.readReg x).toNat + 1) % 65536 ∧
        OtherRegsSame x s t ∧ SameMemory s t ∧ t.ip = s.ip ∧ SameStreams s t) ∧
    (Serving s (.decrement (codeOf x)) rest →
      ∃ t, step s = .next t ∧ Replied s t rest .ok .nothing ∧
        ((t.readReg x).toNat : Int) = ((s.readReg x).toNat - 1 : Int) % 65536 ∧
        OtherRegsSame x s t ∧ SameMemory s t ∧ t.ip = s.ip ∧ SameStreams s t) ∧
    (Serving s (.name (codeOf x)) rest →
      ∃ t, step s = .next t ∧ Replied s t rest .ok (.text (match x with | .A => "a" | .B => "b")) ∧
        SameCore s t ∧ SameStreams s t)

/-- 45_host_commands.md section 4, the memory port (available to the host by the spec's decision D18): the four access
primitives on MEM; IP, A and B stay; an access outside memory fails with OutOfBounds and changes nothing. -/
def Obligations.MemoryPortActsOnTheCells : Prop :=
  ∀ (s : State) (addr : Nat) (v : Byte) (w : Word) (rest : List Command),
    (Serving s (.readByte addr) rest → ∃ t, step s = .next t ∧ SameCore s t ∧ SameStreams s t ∧
      (addr < s.cfg.cap → Replied s t rest .ok (.byte (s.byteAt addr))) ∧
      (s.cfg.cap ≤ addr → Replied s t rest (.failed .outOfBounds) .nothing)) ∧
    (Serving s (.readWord addr) rest → ∃ t, step s = .next t ∧ SameCore s t ∧ SameStreams s t ∧
      (addr + 2 ≤ s.cfg.cap → Replied s t rest .ok (.word (littleEndian (s.byteAt addr) (s.byteAt (addr + 1))))) ∧
      (s.cfg.cap < addr + 2 → Replied s t rest (.failed .outOfBounds) .nothing)) ∧
    (Serving s (.writeByte addr v) rest → ∃ t, step s = .next t ∧ SameMemoryOutside s t addr 1 ∧
      t.a = s.a ∧ t.b = s.b ∧ t.ip = s.ip ∧ SameStreams s t ∧
      (addr < s.cfg.cap → Replied s t rest .ok .nothing ∧ t.byteAt addr = v) ∧
      (s.cfg.cap ≤ addr → Replied s t rest (.failed .outOfBounds) .nothing ∧ SameMemory s t)) ∧
    (Serving s (.writeWord addr w) rest → ∃ t, step s = .next t ∧ SameMemoryOutside s t addr 2 ∧
      t.a = s.a ∧ t.b = s.b ∧ t.ip = s.ip ∧ SameStreams s t ∧
      (addr + 2 ≤ s.cfg.cap → Replied s t rest .ok .nothing ∧ t.byteAt addr = loByte w ∧ t.byteAt (addr + 1) = hiByte w) ∧
      (s.cfg.cap < addr + 2 → Replied s t rest (.failed .outOfBounds) .nothing ∧ SameMemory s t))
end

