-- ==== Sys2Proof/Laws/State.lean ====
section
/-! SUPPORT. What each named update of the state does to each field: one lemma per field per update, so that no later
proof unfolds a record update. -/

namespace Sys2Proof.Machine

variable (s : State)

@[simp] theorem State.writeReg_cfg (r : Reg) (v : Word) : (s.writeReg r v).cfg = s.cfg := rfl
@[simp] theorem State.writeReg_mem (r : Reg) (v : Word) : (s.writeReg r v).mem = s.mem := rfl
@[simp] theorem State.writeReg_a (r : Reg) (v : Word) : (s.writeReg r v).a = if r = .A then v else s.a := rfl
@[simp] theorem State.writeReg_b (r : Reg) (v : Word) : (s.writeReg r v).b = if r = .B then v else s.b := rfl
@[simp] theorem State.writeReg_ip (r : Reg) (v : Word) : (s.writeReg r v).ip = s.ip := rfl
@[simp] theorem State.writeReg_runState (r : Reg) (v : Word) : (s.writeReg r v).runState = s.runState := rfl
@[simp] theorem State.writeReg_icount (r : Reg) (v : Word) : (s.writeReg r v).icount = s.icount := rfl
@[simp] theorem State.writeReg_out (r : Reg) (v : Word) : (s.writeReg r v).out = s.out := rfl
@[simp] theorem State.writeReg_trace (r : Reg) (v : Word) : (s.writeReg r v).trace = s.trace := rfl
@[simp] theorem State.writeReg_replies (r : Reg) (v : Word) : (s.writeReg r v).replies = s.replies := rfl
@[simp] theorem State.writeReg_commands (r : Reg) (v : Word) : (s.writeReg r v).commands = s.commands := rfl
@[simp] theorem State.writeReg_freeCtr (r : Reg) (v : Word) : (s.writeReg r v).freeCtr = s.freeCtr := rfl

@[simp] theorem State.reply_cfg (st : Status) (v : Value) : (s.reply st v).cfg = s.cfg := rfl
@[simp] theorem State.reply_mem (st : Status) (v : Value) : (s.reply st v).mem = s.mem := rfl
@[simp] theorem State.reply_a (st : Status) (v : Value) : (s.reply st v).a = s.a := rfl
@[simp] theorem State.reply_b (st : Status) (v : Value) : (s.reply st v).b = s.b := rfl
@[simp] theorem State.reply_ip (st : Status) (v : Value) : (s.reply st v).ip = s.ip := rfl
@[simp] theorem State.reply_runState (st : Status) (v : Value) : (s.reply st v).runState = s.runState := rfl
@[simp] theorem State.reply_icount (st : Status) (v : Value) : (s.reply st v).icount = s.icount := rfl
@[simp] theorem State.reply_out (st : Status) (v : Value) : (s.reply st v).out = s.out := rfl
@[simp] theorem State.reply_trace (st : Status) (v : Value) : (s.reply st v).trace = s.trace := rfl
@[simp] theorem State.reply_replies (st : Status) (v : Value) : (s.reply st v).replies = s.replies ++ [⟨st, v⟩] := rfl
@[simp] theorem State.reply_commands (st : Status) (v : Value) : (s.reply st v).commands = s.commands := rfl
@[simp] theorem State.reply_freeCtr (st : Status) (v : Value) : (s.reply st v).freeCtr = s.freeCtr := rfl

@[simp] theorem State.emitOut_cfg : (s.emitOut).cfg = s.cfg := rfl
@[simp] theorem State.emitOut_mem : (s.emitOut).mem = s.mem := rfl
@[simp] theorem State.emitOut_a : (s.emitOut).a = s.a := rfl
@[simp] theorem State.emitOut_b : (s.emitOut).b = s.b := rfl
@[simp] theorem State.emitOut_ip : (s.emitOut).ip = s.ip := rfl
@[simp] theorem State.emitOut_runState : (s.emitOut).runState = s.runState := rfl
@[simp] theorem State.emitOut_icount : (s.emitOut).icount = s.icount := rfl
@[simp] theorem State.emitOut_out : (s.emitOut).out = s.out ++ [⟨s.a, s.b, s.ip⟩] := rfl
@[simp] theorem State.emitOut_trace : (s.emitOut).trace = s.trace := rfl
@[simp] theorem State.emitOut_replies : (s.emitOut).replies = s.replies := rfl
@[simp] theorem State.emitOut_commands : (s.emitOut).commands = s.commands := rfl
@[simp] theorem State.emitOut_freeCtr : (s.emitOut).freeCtr = s.freeCtr := rfl

@[simp] theorem State.forgetCount_cfg : (s.forgetCount).cfg = s.cfg := rfl
@[simp] theorem State.forgetCount_mem : (s.forgetCount).mem = s.mem := rfl
@[simp] theorem State.forgetCount_a : (s.forgetCount).a = s.a := rfl
@[simp] theorem State.forgetCount_b : (s.forgetCount).b = s.b := rfl
@[simp] theorem State.forgetCount_ip : (s.forgetCount).ip = s.ip := rfl
@[simp] theorem State.forgetCount_runState : (s.forgetCount).runState = s.runState := rfl
@[simp] theorem State.forgetCount_icount : (s.forgetCount).icount = Config.freeCount s.freeCtr := rfl
@[simp] theorem State.forgetCount_out : (s.forgetCount).out = s.out := rfl
@[simp] theorem State.forgetCount_trace : (s.forgetCount).trace = s.trace := rfl
@[simp] theorem State.forgetCount_replies : (s.forgetCount).replies = s.replies := rfl
@[simp] theorem State.forgetCount_commands : (s.forgetCount).commands = s.commands := rfl
@[simp] theorem State.forgetCount_freeCtr : (s.forgetCount).freeCtr = s.freeCtr + 1 := rfl

@[simp] theorem State.startRun_cfg : (s.startRun).cfg = s.cfg := rfl
@[simp] theorem State.startRun_mem : (s.startRun).mem = s.mem := rfl
@[simp] theorem State.startRun_a : (s.startRun).a = s.a := rfl
@[simp] theorem State.startRun_b : (s.startRun).b = s.b := rfl
@[simp] theorem State.startRun_ip : (s.startRun).ip = 0#16 := rfl
@[simp] theorem State.startRun_runState : (s.startRun).runState = .running := rfl
@[simp] theorem State.startRun_icount : (s.startRun).icount = 0 := rfl
@[simp] theorem State.startRun_out : (s.startRun).out = s.out := rfl
@[simp] theorem State.startRun_trace : (s.startRun).trace = s.trace := rfl
@[simp] theorem State.startRun_replies : (s.startRun).replies = s.replies := rfl
@[simp] theorem State.startRun_commands : (s.startRun).commands = s.commands := rfl
@[simp] theorem State.startRun_freeCtr : (s.startRun).freeCtr = s.freeCtr := rfl

@[simp] theorem State.finishRun_cfg (st : Status) : (s.finishRun st).cfg = s.cfg := rfl
@[simp] theorem State.finishRun_mem (st : Status) : (s.finishRun st).mem = s.mem := rfl
@[simp] theorem State.finishRun_a (st : Status) : (s.finishRun st).a = s.a := rfl
@[simp] theorem State.finishRun_b (st : Status) : (s.finishRun st).b = s.b := rfl
@[simp] theorem State.finishRun_ip (st : Status) : (s.finishRun st).ip = s.ip := rfl
@[simp] theorem State.finishRun_runState (st : Status) : (s.finishRun st).runState = .idle := rfl
@[simp] theorem State.finishRun_icount (st : Status) : (s.finishRun st).icount = Config.freeCount s.freeCtr := rfl
@[simp] theorem State.finishRun_out (st : Status) : (s.finishRun st).out = s.out := rfl
@[simp] theorem State.finishRun_trace (st : Status) : (s.finishRun st).trace = s.trace := rfl
@[simp] theorem State.finishRun_replies (st : Status) : (s.finishRun st).replies = s.replies ++ [⟨st, .nothing⟩] := rfl
@[simp] theorem State.finishRun_commands (st : Status) : (s.finishRun st).commands = s.commands := rfl
@[simp] theorem State.finishRun_freeCtr (st : Status) : (s.finishRun st).freeCtr = s.freeCtr + 1 := rfl

@[simp] theorem State.abort_cfg (e : ErrorKind) : (s.abort e).cfg = s.cfg := rfl
@[simp] theorem State.abort_mem (e : ErrorKind) : (s.abort e).mem = s.mem := rfl
@[simp] theorem State.abort_a (e : ErrorKind) : (s.abort e).a = s.a := rfl
@[simp] theorem State.abort_b (e : ErrorKind) : (s.abort e).b = s.b := rfl
@[simp] theorem State.abort_ip (e : ErrorKind) : (s.abort e).ip = s.ip := rfl
@[simp] theorem State.abort_runState (e : ErrorKind) : (s.abort e).runState = .idle := rfl
@[simp] theorem State.abort_icount (e : ErrorKind) : (s.abort e).icount = Config.freeCount s.freeCtr := rfl
@[simp] theorem State.abort_out (e : ErrorKind) : (s.abort e).out = s.out := rfl
@[simp] theorem State.abort_trace (e : ErrorKind) : (s.abort e).trace = s.trace := rfl
@[simp] theorem State.abort_replies (e : ErrorKind) : (s.abort e).replies = s.replies ++ [⟨.failed e, .nothing⟩] := rfl
@[simp] theorem State.abort_commands (e : ErrorKind) : (s.abort e).commands = s.commands := rfl
@[simp] theorem State.abort_freeCtr (e : ErrorKind) : (s.abort e).freeCtr = s.freeCtr + 1 := rfl

@[simp] theorem State.exitHalted_cfg : (s.exitHalted).cfg = s.cfg := rfl
@[simp] theorem State.exitHalted_mem : (s.exitHalted).mem = s.mem := rfl
@[simp] theorem State.exitHalted_a : (s.exitHalted).a = s.a := rfl
@[simp] theorem State.exitHalted_b : (s.exitHalted).b = s.b := rfl
@[simp] theorem State.exitHalted_ip : (s.exitHalted).ip = 0#16 := rfl
@[simp] theorem State.exitHalted_runState : (s.exitHalted).runState = .idle := rfl
@[simp] theorem State.exitHalted_icount : (s.exitHalted).icount = Config.freeCount s.freeCtr := rfl
@[simp] theorem State.exitHalted_out : (s.exitHalted).out = s.out := rfl
@[simp] theorem State.exitHalted_trace : (s.exitHalted).trace = s.trace := rfl
@[simp] theorem State.exitHalted_replies : (s.exitHalted).replies = s.replies ++ [⟨.ok, .nothing⟩] := rfl
@[simp] theorem State.exitHalted_commands : (s.exitHalted).commands = s.commands := rfl
@[simp] theorem State.exitHalted_freeCtr : (s.exitHalted).freeCtr = s.freeCtr + 1 := rfl

@[simp] theorem State.halt_cfg : (s.halt).cfg = s.cfg := rfl
@[simp] theorem State.halt_mem : (s.halt).mem = s.mem := rfl
@[simp] theorem State.halt_a : (s.halt).a = s.a := rfl
@[simp] theorem State.halt_b : (s.halt).b = s.b := rfl
@[simp] theorem State.halt_ip : (s.halt).ip = 0#16 := rfl
@[simp] theorem State.halt_runState : (s.halt).runState = .idle := rfl
@[simp] theorem State.halt_icount : (s.halt).icount = Config.freeCount s.freeCtr := rfl
@[simp] theorem State.halt_out : (s.halt).out = s.out := rfl
@[simp] theorem State.halt_trace : (s.halt).trace = s.trace := rfl
@[simp] theorem State.halt_replies : (s.halt).replies = s.replies ++ [⟨.ok, .nothing⟩] := rfl
@[simp] theorem State.halt_commands : (s.halt).commands = s.commands := rfl
@[simp] theorem State.halt_freeCtr : (s.halt).freeCtr = s.freeCtr + 1 := rfl

@[simp] theorem State.retire_cfg (i : Instr) : (s.retire i).cfg = s.cfg := rfl
@[simp] theorem State.retire_mem (i : Instr) : (s.retire i).mem = s.mem := rfl
@[simp] theorem State.retire_a (i : Instr) : (s.retire i).a = s.a := rfl
@[simp] theorem State.retire_b (i : Instr) : (s.retire i).b = s.b := rfl
@[simp] theorem State.retire_ip (i : Instr) : (s.retire i).ip = s.ip := rfl
@[simp] theorem State.retire_runState (i : Instr) : (s.retire i).runState = s.runState := rfl
@[simp] theorem State.retire_icount (i : Instr) : (s.retire i).icount = s.icount + 1 := rfl
@[simp] theorem State.retire_out (i : Instr) : (s.retire i).out = s.out := rfl
@[simp] theorem State.retire_trace (i : Instr) : (s.retire i).trace = bif s.cfg.dbgEn then s.trace ++ [⟨s.icount, i.opcode, operandsOf i⟩] else s.trace := rfl
@[simp] theorem State.retire_replies (i : Instr) : (s.retire i).replies = s.replies := rfl
@[simp] theorem State.retire_commands (i : Instr) : (s.retire i).commands = s.commands := rfl
@[simp] theorem State.retire_freeCtr (i : Instr) : (s.retire i).freeCtr = s.freeCtr := rfl

@[simp] theorem State.resetCore_cfg : (s.resetCore).cfg = s.cfg := rfl
@[simp] theorem State.resetCore_mem : (s.resetCore).mem = [] := rfl
@[simp] theorem State.resetCore_a : (s.resetCore).a = 0#16 := rfl
@[simp] theorem State.resetCore_b : (s.resetCore).b = 0#16 := rfl
@[simp] theorem State.resetCore_ip : (s.resetCore).ip = 0#16 := rfl
@[simp] theorem State.resetCore_runState : (s.resetCore).runState = .idle := rfl
@[simp] theorem State.resetCore_icount : (s.resetCore).icount = Config.freeCount s.freeCtr := rfl
@[simp] theorem State.resetCore_out : (s.resetCore).out = s.out := rfl
@[simp] theorem State.resetCore_trace : (s.resetCore).trace = s.trace := rfl
@[simp] theorem State.resetCore_replies : (s.resetCore).replies = s.replies := rfl
@[simp] theorem State.resetCore_commands : (s.resetCore).commands = s.commands := rfl
@[simp] theorem State.resetCore_freeCtr : (s.resetCore).freeCtr = s.freeCtr + 1 := rfl

@[simp] theorem State.readReg_A : s.readReg .A = s.a := rfl
@[simp] theorem State.readReg_B : s.readReg .B = s.b := rfl

@[simp] theorem State.readReg_writeReg (r q : Reg) (v : Word) :
    (s.writeReg r v).readReg q = if q = r then v else s.readReg q := by
  cases r <;> cases q <;> rfl

end Sys2Proof.Machine
end

