-- ==== Sys2Proof/Laws/Memory.lean ====
section
/-! SUPPORT. The laws of memory: what one cell reads as after each operation, and that every operation keeps the canonical
form and stays inside the address space. -/

namespace Sys2Proof.Machine

@[simp] theorem Memory.get_nil (a : Nat) : Memory.get [] a = Memory.blank := rfl

theorem Memory.get_cons_of_ne {k a : Nat} {v : Byte} {m : Memory} (h : k ≠ a) :
    Memory.get ((k, v) :: m) a = Memory.get m a := by
  simp [Memory.get, h]

/-- An address below or between the listed ones reads as blank. -/
theorem Memory.get_eq_blank {m : Memory} {a : Nat} (h : ∀ c ∈ m, c.1 ≠ a) : Memory.get m a = Memory.blank := by
  induction m with
  | nil => rfl
  | cons c rest ih =>
    obtain ⟨k, v⟩ := c
    rw [Memory.get_cons_of_ne (h (k, v) (by simp))]
    exact ih fun c hc => h c (by simp [hc])

theorem Memory.get_consCell_self {m : Memory} {a : Nat} (v : Byte) (h : ∀ c ∈ m, c.1 ≠ a) :
    Memory.get (Memory.cons a v m) a = v := by
  unfold Memory.cons
  split
  · rename_i hv; rw [hv]; exact Memory.get_eq_blank h
  · simp [Memory.get]

theorem Memory.get_consCell_ne {m : Memory} {a b : Nat} (v : Byte) (h : a ≠ b) :
    Memory.get (Memory.cons a v m) b = Memory.get m b := by
  unfold Memory.cons
  split
  · rfl
  · exact Memory.get_cons_of_ne h

/-- A cell holds what was last written to it. -/
theorem Memory.get_put_self {m : Memory} (h : Memory.wf m) (a : Nat) (v : Byte) :
    Memory.get (Memory.put m a v) a = v := by
  induction m with
  | nil => exact Memory.get_consCell_self v (by simp)
  | cons c rest ih =>
    obtain ⟨k, w⟩ := c
    obtain ⟨hs, hb⟩ := h
    rw [List.pairwise_cons] at hs
    obtain ⟨hk, hs⟩ := hs
    simp only [Memory.put]
    split
    · rename_i hlt
      refine Memory.get_consCell_self v fun c hc => ?_
      rcases List.mem_cons.1 hc with rfl | hc
      · simp; omega
      · have := hk c hc; simp at this; omega
    · split
      · rename_i heq
        exact Memory.get_consCell_self v fun c hc => by have := hk c hc; simp at this; omega
      · rename_i hne
        rw [Memory.get_cons_of_ne (Ne.symm hne)]
        exact ih ⟨hs, fun c hc => hb c (by simp [hc])⟩

/-- A write leaves every other cell alone. -/
theorem Memory.get_put_ne (m : Memory) {a b : Nat} (v : Byte) (h : a ≠ b) :
    Memory.get (Memory.put m a v) b = Memory.get m b := by
  induction m with
  | nil => exact Memory.get_consCell_ne v h
  | cons c rest ih =>
    obtain ⟨k, w⟩ := c
    simp only [Memory.put]
    split
    · exact Memory.get_consCell_ne v h
    · split
      · rename_i heq
        rw [Memory.get_consCell_ne v h, Memory.get_cons_of_ne (heq ▸ h)]
      · simp [Memory.get, ih]

theorem Memory.mem_put {m : Memory} {a : Nat} {v : Byte} {c : Host.Cell} (h : c ∈ Memory.put m a v) :
    c = (a, v) ∧ v ≠ Memory.blank ∨ c ∈ m := by
  induction m with
  | nil =>
    simp only [Memory.put, Memory.cons] at h
    split at h <;> simp_all
  | cons d rest ih =>
    obtain ⟨k, w⟩ := d
    simp only [Memory.put, Memory.cons] at h
    split at h
    · split at h <;> simp_all
    · split at h
      · split at h
        · exact .inr (List.mem_cons_of_mem _ h)
        · rcases List.mem_cons.1 h with rfl | h
          · exact .inl ⟨rfl, ‹_›⟩
          · exact .inr (List.mem_cons_of_mem _ h)
      · rcases List.mem_cons.1 h with rfl | h
        · exact .inr (by simp)
        · rcases ih h with h | h
          · exact .inl h
          · exact .inr (List.mem_cons_of_mem _ h)

theorem Memory.pairwise_consCell {m : Memory} {a : Nat} (v : Byte) (hs : m.Pairwise (fun x y => x.1 < y.1))
    (h : ∀ c ∈ m, a < c.1) : (Memory.cons a v m).Pairwise (fun x y => x.1 < y.1) := by
  unfold Memory.cons
  split
  · exact hs
  · exact List.pairwise_cons.2 ⟨h, hs⟩

/-- A write keeps the canonical form. -/
theorem Memory.put_wf {m : Memory} (h : Memory.wf m) (a : Nat) (v : Byte) : Memory.wf (Memory.put m a v) := by
  refine ⟨?_, fun c hc => ?_⟩
  · induction m with
    | nil => exact Memory.pairwise_consCell v .nil (by simp)
    | cons d rest ih =>
      obtain ⟨k, w⟩ := d
      obtain ⟨hs, hb⟩ := h
      obtain ⟨hk, hs'⟩ := List.pairwise_cons.1 hs
      simp only [Memory.put]
      split
      · rename_i hlt
        refine Memory.pairwise_consCell v hs fun c hc => ?_
        rcases List.mem_cons.1 hc with rfl | hc
        · exact hlt
        · exact Nat.lt_trans hlt (hk c hc)
      · split
        · rename_i heq
          exact Memory.pairwise_consCell v hs' fun c hc => heq ▸ hk c hc
        · refine List.pairwise_cons.2 ⟨fun c hc => ?_, ih ⟨hs', fun c hc => hb c (by simp [hc])⟩⟩
          rcases Memory.mem_put hc with ⟨rfl, -⟩ | hc
          · simp; omega
          · exact hk c hc
  · rcases Memory.mem_put hc with ⟨rfl, hv⟩ | hc
    · exact hv
    · exact h.2 c hc

/-- A write below CAP stays inside the address space. -/
theorem Memory.put_within {cap : Nat} {m : Memory} (h : Memory.within cap m) {a : Nat} (ha : a < cap) (v : Byte) :
    Memory.within cap (Memory.put m a v) := fun c hc => by
  rcases Memory.mem_put hc with ⟨rfl, -⟩ | hc
  · exact ha
  · exact h c hc

/-! ## Several bytes -/

theorem Memory.putBytes_wf {m : Memory} (h : Memory.wf m) (a : Nat) (bs : List Byte) :
    Memory.wf (Memory.putBytes m a bs) := by
  induction bs generalizing m a with
  | nil => exact h
  | cons v rest ih => exact ih (Memory.put_wf h a v) (a + 1)

theorem Memory.putBytes_within {cap : Nat} {m : Memory} (h : Memory.within cap m) {a : Nat} {bs : List Byte}
    (ha : a + bs.length ≤ cap) : Memory.within cap (Memory.putBytes m a bs) := by
  induction bs generalizing m a with
  | nil => exact h
  | cons v rest ih =>
    simp only [List.length_cons] at ha
    exact ih (Memory.put_within h (by omega) v) (by omega)

/-- Bytes written leave every cell outside them alone. -/
theorem Memory.get_putBytes_ne (m : Memory) {a b : Nat} (bs : List Byte) (h : b < a ∨ a + bs.length ≤ b) :
    Memory.get (Memory.putBytes m a bs) b = Memory.get m b := by
  induction bs generalizing m a with
  | nil => rfl
  | cons v rest ih =>
    simp only [List.length_cons] at h
    rw [Memory.putBytes, ih _ (by omega), Memory.get_put_ne m v (by omega)]

/-- Byte `k` of bytes written at `a` is read at `a + k`. -/
theorem Memory.get_putBytes {m : Memory} (h : Memory.wf m) (a : Nat) {bs : List Byte} {k : Nat} (hk : k < bs.length) :
    Memory.get (Memory.putBytes m a bs) (a + k) = bs[k] := by
  induction bs generalizing m a k with
  | nil => simp at hk
  | cons v rest ih =>
    cases k with
    | zero =>
      rw [Memory.putBytes, Memory.get_putBytes_ne _ _ (by omega)]
      exact Memory.get_put_self h a v
    | succ k =>
      have := ih (Memory.put_wf h a v) (a + 1) (k := k) (by simpa using hk)
      rw [Memory.putBytes, show a + (k + 1) = a + 1 + k by omega, this]
      rfl

/-! ## Whole memories -/

theorem Memory.ofCells_wf (cap : Nat) (f : Nat → Byte) : Memory.wf (Memory.ofCells cap f) := by
  refine ⟨List.Pairwise.filter _ ?_, fun c hc => ?_⟩
  · rw [List.pairwise_map]
    exact List.pairwise_lt_range
  · simpa using (List.mem_filter.1 hc).2

theorem Memory.ofCells_within (cap : Nat) (f : Nat → Byte) : Memory.within cap (Memory.ofCells cap f) := fun c hc => by
  obtain ⟨a, ha, rfl⟩ := List.mem_map.1 (List.mem_filter.1 hc).1
  exact List.mem_range.1 ha

theorem Memory.putBytesBelow_wf {cap : Nat} {m : Memory} (h : Memory.wf m) (a : Nat) (bs : List Byte) :
    Memory.wf (Memory.putBytesBelow cap m a bs) := by
  induction bs generalizing m a with
  | nil => exact h
  | cons v rest ih =>
    refine ih ?_ (a + 1)
    split
    · exact Memory.put_wf h a v
    · exact h

theorem Memory.reset_wf : Memory.wf State.reset.mem := ⟨.nil, by simp [State.reset, State.powerOn]⟩

theorem Memory.clear_wf : Memory.wf Memory.clear := ⟨.nil, by simp [Memory.clear]⟩

theorem Memory.clear_within (cap : Nat) : Memory.within cap Memory.clear := by simp [Memory.within, Memory.clear]

/-- A listed cell is read. -/
theorem Memory.get_of_mem {m : Memory} (h : Memory.wf m) {c : Host.Cell} (hc : c ∈ m) : Memory.get m c.1 = c.2 := by
  induction m with
  | nil => simp at hc
  | cons d rest ih =>
    obtain ⟨k, w⟩ := d
    obtain ⟨hk, hs⟩ := List.pairwise_cons.1 h.1
    rcases List.mem_cons.1 hc with rfl | hc
    · simp [Memory.get]
    · rw [Memory.get_cons_of_ne (Nat.ne_of_lt (hk c hc))]
      exact ih ⟨hs, fun c hc => h.2 c (by simp [hc])⟩ hc

/-- A cell that does not read as blank is listed. -/
theorem Memory.mem_of_get {m : Memory} {a : Nat} (h : Memory.get m a ≠ Memory.blank) : (a, Memory.get m a) ∈ m := by
  induction m with
  | nil => simp at h
  | cons d rest ih =>
    obtain ⟨k, w⟩ := d
    by_cases hk : k = a
    · simp [Memory.get, hk]
    · rw [Memory.get_cons_of_ne hk] at h ⊢
      exact List.mem_cons_of_mem _ (ih h)

theorem Memory.get_ofCells (cap : Nat) (f : Nat → Byte) (a : Nat) :
    Memory.get (Memory.ofCells cap f) a = if a < cap then f a else Memory.blank := by
  split
  · rename_i ha
    by_cases hb : f a = Memory.blank
    · rw [hb]
      by_contra hg
      have hm := Memory.mem_of_get hg
      obtain ⟨a', ha', he⟩ := List.mem_map.1 (List.mem_filter.1 hm).1
      simp only [Prod.mk.injEq] at he
      obtain ⟨rfl, he⟩ := he
      exact hg (he ▸ hb)
    · refine Memory.get_of_mem (Memory.ofCells_wf cap f) (c := (a, f a)) (List.mem_filter.2 ⟨?_, by simpa using hb⟩)
      exact List.mem_map.2 ⟨a, List.mem_range.2 ha, rfl⟩
  · refine Memory.get_eq_blank fun c hc => ?_
    have := Memory.ofCells_within cap f c hc
    omega

/-! ## The primitives: what each can answer -/

theorem Memory.readByte_eq_ok {cap : Nat} {m : Memory} {a : Nat} {v : Byte} :
    Memory.readByte cap m a = .ok v ↔ a + 1 ≤ cap ∧ v = Memory.get m a := by
  unfold Memory.readByte; split <;> simp_all [eq_comm]

theorem Memory.readWord_eq_ok {cap : Nat} {m : Memory} {a : Nat} {v : Word} :
    Memory.readWord cap m a = .ok v ↔
      a + 2 ≤ cap ∧ v = joinBytes (Memory.get m a) (Memory.get m (a + 1)) := by
  unfold Memory.readWord; split <;> simp_all [eq_comm]

theorem Memory.writeByte_eq_ok {cap : Nat} {m m' : Memory} {a : Nat} {v : Byte} :
    Memory.writeByte cap m a v = .ok m' ↔ a + 1 ≤ cap ∧ m' = Memory.put m a v := by
  unfold Memory.writeByte; split <;> simp_all [eq_comm]

theorem Memory.writeWord_eq_ok {cap : Nat} {m m' : Memory} {a : Nat} {v : Word} :
    Memory.writeWord cap m a v = .ok m' ↔
      a + 2 ≤ cap ∧ m' = Memory.putBytes m a [loByte v, hiByte v] := by
  unfold Memory.writeWord; split <;> simp_all [eq_comm]

/-- Every access primitive that fails fails with OutOfBounds. -/
theorem Memory.writeWord_eq_error {cap : Nat} {m : Memory} {a : Nat} {v : Word} {e : ErrorKind} :
    Memory.writeWord cap m a v = .error e ↔ cap < a + 2 ∧ e = .outOfBounds := by
  unfold Memory.writeWord
  split <;> simp [eq_comm] <;> omega

theorem Memory.readWord_eq_error {cap : Nat} {m : Memory} {a : Nat} {e : ErrorKind} :
    Memory.readWord cap m a = .error e ↔ cap < a + 2 ∧ e = .outOfBounds := by
  unfold Memory.readWord
  split <;> simp [eq_comm] <;> omega

theorem Memory.writeByte_eq_error {cap : Nat} {m : Memory} {a : Nat} {v : Byte} {e : ErrorKind} :
    Memory.writeByte cap m a v = .error e ↔ cap < a + 1 ∧ e = .outOfBounds := by
  unfold Memory.writeByte
  split <;> simp [eq_comm] <;> omega

theorem Memory.writeWord_keeps {cap : Nat} {m m' : Memory} {a : Nat} {v : Word}
    (h : Memory.writeWord cap m a v = .ok m') (hm : Memory.wf m) (hw : Memory.within cap m) :
    Memory.wf m' ∧ Memory.within cap m' := by
  obtain ⟨ha, rfl⟩ := Memory.writeWord_eq_ok.1 h
  exact ⟨Memory.putBytes_wf hm a _, Memory.putBytes_within hw (by simpa using ha)⟩

theorem Memory.writeByte_keeps {cap : Nat} {m m' : Memory} {a : Nat} {v : Byte}
    (h : Memory.writeByte cap m a v = .ok m') (hm : Memory.wf m) (hw : Memory.within cap m) :
    Memory.wf m' ∧ Memory.within cap m' := by
  obtain ⟨ha, rfl⟩ := Memory.writeByte_eq_ok.1 h
  exact ⟨Memory.put_wf hm a v, Memory.put_within hw (by omega) v⟩

/-! ## Byte order -/

@[simp] theorem loByte_joinBytes (lo hi : Byte) : loByte (joinBytes lo hi) = lo := by
  ext i h
  rw [loByte, BitVec.getElem_extractLsb']
  exact (BitVec.getLsbD_append (x := hi) (y := lo)).trans (by simp [h])

@[simp] theorem hiByte_joinBytes (lo hi : Byte) : hiByte (joinBytes lo hi) = hi := by
  ext i h
  rw [hiByte, BitVec.getElem_extractLsb']
  exact (BitVec.getLsbD_append (x := hi) (y := lo)).trans (by simp [h])

@[simp] theorem joinBytes_lo_hi (w : Word) : joinBytes (loByte w) (hiByte w) = w := by
  unfold loByte hiByte joinBytes
  ext i hi
  simp only [BitVec.getElem_append, BitVec.getElem_extractLsb']
  split
  · simp [← BitVec.getLsbD_eq_getElem]
  · rw [show 8 + (i - 8) = i by omega]; simp [← BitVec.getLsbD_eq_getElem]

@[simp] theorem highNibble_joinNibbles (d s : BitVec 4) : highNibble (joinNibbles d s) = d := by
  ext i h
  rw [highNibble, BitVec.getElem_extractLsb']
  exact (BitVec.getLsbD_append (x := d) (y := s)).trans (by simp [h])

@[simp] theorem lowNibble_joinNibbles (d s : BitVec 4) : lowNibble (joinNibbles d s) = s := by
  ext i h
  rw [lowNibble, BitVec.getElem_extractLsb']
  exact (BitVec.getLsbD_append (x := d) (y := s)).trans (by simp [h])

@[simp] theorem joinNibbles_high_low (p : Byte) : joinNibbles (highNibble p) (lowNibble p) = p := by
  unfold highNibble lowNibble joinNibbles
  ext i hi
  simp only [BitVec.getElem_append, BitVec.getElem_extractLsb']
  split
  · simp [← BitVec.getLsbD_eq_getElem]
  · rw [show 4 + (i - 4) = i by omega]; simp [← BitVec.getLsbD_eq_getElem]

end Sys2Proof.Machine
end

