-- ==== Sys2Proof/Laws/Ops.lean ====
section
/-! SUPPORT. What each shared operation can answer, said once: register codes, the end of a handler, the ALU operations, the
fetch primitives, exec and step. Proofs cite these instead of unfolding the operations. -/

namespace Sys2Proof.Machine

/-! ## Register codes -/

@[simp] theorem regCheck_zero : regCheck 0x00#8 = .ok .A := rfl
@[simp] theorem regCheck_one : regCheck 0x01#8 = .ok .B := rfl

theorem regCheck_of_valid {c : Byte} (h : validCode c = true) : ∃ r, regCheck c = .ok r := by
  simp only [validCode, Bool.or_eq_true, beq_iff_eq] at h
  rcases h with rfl | rfl
  · exact ⟨.A, rfl⟩
  · exact ⟨.B, rfl⟩

theorem regCheck_of_invalid {c : Byte} (h : validCode c = false) : regCheck c = .error .invalidRegister := by
  simp only [validCode, Bool.or_eq_false_iff, beq_eq_false_iff_ne, ne_eq] at h
  simp [regCheck, h.1, h.2]

/-- RegCheck answers with a register for a valid code and InvalidRegister for every other. -/
theorem regCheck_cases (c : Byte) :
    (validCode c = true ∧ ∃ r, regCheck c = .ok r) ∨
      (validCode c = false ∧ regCheck c = .error .invalidRegister) := by
  cases h : validCode c
  · exact .inr ⟨rfl, regCheck_of_invalid h⟩
  · exact .inl ⟨rfl, regCheck_of_valid h⟩

theorem validCode_nibbleCode (n : BitVec 4) : validCode (nibbleCode n) = validNibble n := by
  revert n; decide

theorem validNibble_lowNibble {c : Byte} (h : validCode c = true) : validNibble (lowNibble c) = true := by
  revert c; decide

/-! ## The end of a handler -/

@[simp] theorem conclude_ok (s t : State) (i : Instr) : s.conclude i (.ok t) = .next (t.retire i) := rfl

@[simp] theorem conclude_error (s : State) (i : Instr) (e : ErrorKind) :
    s.conclude i (.error e) = .next (s.abort e) := rfl

/-- A handler that ends in `conclude` answers a next state: its effect retired, or the abort. -/
theorem conclude_cases {s t : State} {i : Instr} {r : Except ErrorKind State} (h : s.conclude i r = .next t) :
    (∃ u, r = .ok u ∧ t = u.retire i) ∨ (∃ e, r = .error e ∧ t = s.abort e) := by
  cases r with
  | ok u => simp at h; exact .inl ⟨u, rfl, h.symm⟩
  | error e => simp at h; exact .inr ⟨e, rfl, h.symm⟩

/-! ## ALU operations -/

theorem pairOp_cases (s : State) (f : Word → Word → Word) (d src : BitVec 4) :
    (∃ rd rs, regCheck (nibbleCode d) = .ok rd ∧ regCheck (nibbleCode src) = .ok rs ∧
      s.pairOp f d src = .ok (s.writeReg rd (f (s.readReg rd) (s.readReg rs)))) ∨
    ((validNibble d && validNibble src) = false ∧ s.pairOp f d src = .error .invalidRegister) := by
  rw [← validCode_nibbleCode, ← validCode_nibbleCode]
  rcases regCheck_cases (nibbleCode d) with ⟨hd, rd, ed⟩ | ⟨hd, ed⟩
  · rcases regCheck_cases (nibbleCode src) with ⟨hs, rs, es⟩ | ⟨hs, es⟩
    · exact .inl ⟨rd, rs, ed, es, by simp [State.pairOp, ed, es]; rfl⟩
    · exact .inr ⟨by simp [hs], by simp [State.pairOp, ed, es]; rfl⟩
  · exact .inr ⟨by simp [hd], by simp [State.pairOp, ed]; rfl⟩

theorem regOp_cases (s : State) (f : Word → Word) (r : Byte) :
    (∃ x, regCheck r = .ok x ∧ s.regOp f r = .ok (s.writeReg x (f (s.readReg x)))) ∨
    (validCode r = false ∧ s.regOp f r = .error .invalidRegister) := by
  rcases regCheck_cases r with ⟨h, x, e⟩ | ⟨h, e⟩
  · exact .inl ⟨x, e, by simp [State.regOp, e]⟩
  · exact .inr ⟨h, by simp [State.regOp, e]⟩

/-! ## Fetch -/

theorem fetchByte_eq_some {s t : State} {v : Byte} :
    s.fetchByte = some (v, t) ↔
      s.ip.toNat + 1 ≤ s.cfg.cap ∧ v = s.byteAt s.ip.toNat ∧ t = { s with ip := s.ip + 1#16 } := by
  unfold State.fetchByte Memory.readByte State.byteAt
  split <;> rename_i h <;> split at h <;> simp_all [eq_comm]

theorem fetchByte_eq_none {s : State} : s.fetchByte = none ↔ s.cfg.cap < s.ip.toNat + 1 := by
  unfold State.fetchByte Memory.readByte
  split <;> rename_i h <;> split at h <;> simp_all

theorem fetchWord_eq_some {s t : State} {v : Word} :
    s.fetchWord = some (v, t) ↔
      s.ip.toNat + 2 ≤ s.cfg.cap ∧ v = joinBytes (s.byteAt s.ip.toNat) (s.byteAt (s.ip.toNat + 1)) ∧
        t = { s with ip := s.ip + 2#16 } := by
  unfold State.fetchWord Memory.readWord State.byteAt
  split <;> rename_i h <;> split at h <;> simp_all [eq_comm]

theorem fetchWord_eq_none {s : State} : s.fetchWord = none ↔ s.cfg.cap < s.ip.toNat + 2 := by
  unfold State.fetchWord Memory.readWord
  split <;> rename_i h <;> split at h <;> simp_all

/-! ## Exec and step -/

/-- Everything `exec` can do: abort with one of two errors, or complete with one effect. -/
inductive ExecCase (i : Instr) (s : State) : State → Prop where
  | aborted (e : ErrorKind) (h : e = .invalidRegister ∨ e = .outOfBounds) : ExecCase i s (s.abort e)
  | wroteReg (r : Reg) (v : Word) : ExecCase i s ((s.writeReg r v).retire i)
  | stored (addr : Word) (v : Word) (m : Memory) (h : Memory.writeWord s.cfg.cap s.mem addr.toNat v = .ok m) :
      ExecCase i s ({ s with mem := m }.retire i)
  | dumped (h : i = .dumpreg) : ExecCase i s (s.emitOut.retire i)
  | halted (h : i = .ret) : ExecCase i s (s.retire i).halt

theorem exec_cases (i : Instr) (s : State) : ∃ t, exec i s = .next t ∧ ExecCase i s t := by
  cases i with
  | movToReg r imm =>
    rcases regCheck_cases r with ⟨-, x, e⟩ | ⟨-, e⟩
    · exact ⟨_, by simp [exec, execMovToReg, e], .wroteReg x imm⟩
    · exact ⟨_, by simp [exec, execMovToReg, e], .aborted _ (.inl rfl)⟩
  | movToRam addr r =>
    rcases regCheck_cases r with ⟨-, x, e⟩ | ⟨-, e⟩
    · cases hm : Memory.writeWord s.cfg.cap s.mem addr.toNat (s.readReg x) with
      | ok m => exact ⟨_, by simp [exec, execMovToRam, cellIndex, e, bind, Except.bind, hm]; rfl, .stored addr _ m hm⟩
      | error e' => exact ⟨_, by simp [exec, execMovToRam, cellIndex, e, bind, Except.bind, hm],
          .aborted _ (.inr (Memory.writeWord_eq_error.1 hm).2)⟩
    · exact ⟨_, by simp [exec, execMovToRam, e, bind, Except.bind], .aborted _ (.inl rfl)⟩
  | movFromRam r addr =>
    rcases regCheck_cases r with ⟨-, x, e⟩ | ⟨-, e⟩
    · cases hm : Memory.readWord s.cfg.cap s.mem addr.toNat with
      | ok v => exact ⟨_, by simp [exec, execMovFromRam, cellIndex, e, bind, Except.bind, hm]; rfl, .wroteReg x v⟩
      | error e' => exact ⟨_, by simp [exec, execMovFromRam, cellIndex, e, bind, Except.bind, hm],
          .aborted _ (.inr (Memory.readWord_eq_error.1 hm).2)⟩
    · exact ⟨_, by simp [exec, execMovFromRam, e, bind, Except.bind], .aborted _ (.inl rfl)⟩
  | dumpreg => exact ⟨_, rfl, .dumped rfl⟩
  | add d src =>
    rcases pairOp_cases s aluAdd d src with ⟨rd, rs, -, -, e⟩ | ⟨-, e⟩
    · exact ⟨_, by simp [exec, execAdd, e]; rfl, .wroteReg rd _⟩
    · exact ⟨_, by simp [exec, execAdd, e], .aborted _ (.inl rfl)⟩
  | sub d src =>
    rcases pairOp_cases s aluSub d src with ⟨rd, rs, -, -, e⟩ | ⟨-, e⟩
    · exact ⟨_, by simp [exec, execSub, e]; rfl, .wroteReg rd _⟩
    · exact ⟨_, by simp [exec, execSub, e], .aborted _ (.inl rfl)⟩
  | inc r =>
    rcases regOp_cases s aluInc r with ⟨x, -, e⟩ | ⟨-, e⟩
    · exact ⟨_, by simp [exec, execInc, e]; rfl, .wroteReg x _⟩
    · exact ⟨_, by simp [exec, execInc, e], .aborted _ (.inl rfl)⟩
  | dec r =>
    rcases regOp_cases s aluDec r with ⟨x, -, e⟩ | ⟨-, e⟩
    · exact ⟨_, by simp [exec, execDec, e]; rfl, .wroteReg x _⟩
    · exact ⟨_, by simp [exec, execDec, e], .aborted _ (.inl rfl)⟩
  | ret => exact ⟨_, rfl, .halted rfl⟩

theorem exec_inv {i : Instr} {s t : State} (h : exec i s = .next t) : ExecCase i s t := by
  obtain ⟨u, hu, hc⟩ := exec_cases i s
  rw [hu] at h
  injection h with h
  exact h ▸ hc

theorem step_idle {s : State} (hc : s.cfg.WF) (h : s.runState = .idle) : step s = .next s.serveHost := by
  simp only [step, if_pos hc, h]

theorem step_running {s : State} (hc : s.cfg.WF) (h : s.runState = .running) : step s = s.runInstr := by
  simp only [step, if_pos hc, h]

theorem step_halted {s : State} (hc : s.cfg.WF) (h : s.runState = .halted) : step s = .next s.exitHalted := by
  simp only [step, if_pos hc, h]

theorem step_capacity {s : State} (hc : ¬ s.cfg.WF) : step s = .fault .capacityOutOfRange := by
  simp only [step, if_neg hc]

/-- Everything `step` can do when it answers a next state. -/
inductive StepCase (s : State) : State → Prop where
  | served (h : s.runState = .idle) : StepCase s s.serveHost
  | executed (h : s.runState = .running) (i : Instr) (u t : State) (hf : s.fetchInstr = .instr i u)
      (he : exec i u = .next t) : StepCase s t
  | stopped (h : s.runState = .running) (e : DecodeError) (u : State) (hf : s.fetchInstr = .stop e u) :
      StepCase s (u.abort (decodeErrorKind e))
  | leftHalted (h : s.runState = .halted) : StepCase s s.exitHalted

theorem step_inv {s t : State} (h : step s = .next t) : s.cfg.WF ∧ StepCase s t := by
  by_cases hc : s.cfg.WF
  · refine ⟨hc, ?_⟩
    cases hr : s.runState with
    | idle =>
      rw [step_idle hc hr] at h; injection h with h; exact h ▸ .served hr
    | running =>
      rw [step_running hc hr] at h
      unfold State.runInstr at h
      split at h
      · rename_i i u hf; exact .executed hr i u t hf h
      · rename_i e u hf; injection h with h; exact h ▸ .stopped hr e u hf
    | halted =>
      rw [step_halted hc hr] at h; injection h with h; exact h ▸ .leftHalted hr
  · rw [step_capacity hc] at h; cases h

/-- In a machine whose CAP is in range, every step answers a next state. -/
theorem step_total {s : State} (hc : s.cfg.WF) : ∃ t, step s = .next t := by
  cases hr : s.runState with
  | idle => exact ⟨_, step_idle hc hr⟩
  | halted => exact ⟨_, step_halted hc hr⟩
  | running =>
    rw [step_running hc hr]
    unfold State.runInstr
    split
    · rename_i i u _
      obtain ⟨t, ht, -⟩ := exec_cases i u
      exact ⟨t, ht⟩
    · exact ⟨_, rfl⟩

end Sys2Proof.Machine
end

