-- ==== Sys2Proof/Laws/Decode.lean ====
section
/-! SUPPORT. Laws of the decoder that hold whatever the source of bytes, and what a fetch does to the state. -/

namespace Sys2Proof

/-- The source a decode attempt leaves, whether it found an instruction or stopped. -/
def Decoded.source {σ : Type} : Decoded σ → σ
  | .instr _ rest => rest
  | .stop _ rest => rest

theorem Decoded.fetch_keeps {σ α : Type} {P : σ → Prop} {get : σ → Option (α × σ)} {next : α → σ → Decoded σ}
    (hg : ∀ s v t, get s = some (v, t) → P s → P t) (hn : ∀ v t, P t → P (next v t).source) {s : σ} (h : P s) :
    P (Decoded.fetch get s next).source := by
  unfold Decoded.fetch
  split
  · exact h
  · rename_i v t e; exact hn v t (hg s v t e h)

/-- What both fetch primitives keep, a whole decode attempt keeps. -/
theorem decodeWith_keeps {σ : Type} {P : σ → Prop} {fetchByte : σ → Option (Byte × σ)} {fetchWord : σ → Option (Word × σ)}
    (hb : ∀ s v t, fetchByte s = some (v, t) → P s → P t) (hw : ∀ s v t, fetchWord s = some (v, t) → P s → P t)
    {s : σ} (h : P s) : P (decodeWith fetchByte fetchWord s).source := by
  refine Decoded.fetch_keeps hb (fun op s hs => ?_) h
  have byte : ∀ {next : Byte → σ → Decoded σ} {u : σ}, P u → (∀ v t, P t → P (next v t).source) →
      P (Decoded.fetch fetchByte u next).source := fun hu hn => Decoded.fetch_keeps hb hn hu
  have word : ∀ {next : Word → σ → Decoded σ} {u : σ}, P u → (∀ v t, P t → P (next v t).source) →
      P (Decoded.fetch fetchWord u next).source := fun hu hn => Decoded.fetch_keeps hw hn hu
  split
  · exact byte hs fun _ _ h => word h fun _ _ h => h
  · exact word hs fun _ _ h => byte h fun _ _ h => h
  · exact byte hs fun _ _ h => word h fun _ _ h => h
  · exact hs
  · exact byte hs fun _ _ h => h
  · exact byte hs fun _ _ h => h
  · exact byte hs fun _ _ h => h
  · exact byte hs fun _ _ h => h
  · exact hs
  · exact hs

/-- A decode attempt with its source seen through `f`. -/
def Decoded.map {σ τ : Type} (f : σ → τ) : Decoded σ → Decoded τ
  | .instr i s => .instr i (f s)
  | .stop e s => .stop e (f s)

theorem Decoded.fetch_map {σ τ α : Type} {f : σ → τ} {P : σ → Prop} {g : σ → Option (α × σ)} {g' : τ → Option (α × τ)}
    (hg : ∀ s, P s → g' (f s) = (g s).map (fun p => (p.1, f p.2))) (hP : ∀ s v t, P s → g s = some (v, t) → P t)
    {n : α → σ → Decoded σ} {n' : α → τ → Decoded τ} (hn : ∀ v t, P t → n' v (f t) = Decoded.map f (n v t))
    {s : σ} (hs : P s) : Decoded.fetch g' (f s) n' = Decoded.map f (Decoded.fetch g s n) := by
  unfold Decoded.fetch
  rw [hg s hs]
  cases h : g s with
  | none => rfl
  | some p => obtain ⟨v, t⟩ := p; exact hn v t (hP s v t hs h)

/-- If two sources of bytes fetch alike, one seen through `f`, they decode alike. -/
theorem decodeWith_map {σ τ : Type} {f : σ → τ} {P : σ → Prop} {fb : σ → Option (Byte × σ)} {fw : σ → Option (Word × σ)}
    {fb' : τ → Option (Byte × τ)} {fw' : τ → Option (Word × τ)}
    (hb : ∀ s, P s → fb' (f s) = (fb s).map (fun p => (p.1, f p.2))) (hbP : ∀ s v t, P s → fb s = some (v, t) → P t)
    (hw : ∀ s, P s → fw' (f s) = (fw s).map (fun p => (p.1, f p.2))) (hwP : ∀ s v t, P s → fw s = some (v, t) → P t)
    {s : σ} (hs : P s) : decodeWith fb' fw' (f s) = Decoded.map f (decodeWith fb fw s) := by
  unfold decodeWith
  refine Decoded.fetch_map hb hbP (fun op s hs => ?_) hs
  have byte := @Decoded.fetch_map σ τ Byte f P fb fb' hb hbP
  have word := @Decoded.fetch_map σ τ Word f P fw fw' hw hwP
  split
  · exact byte (fun v t h => word (fun _ _ _ => rfl) h) hs
  · exact word (fun v t h => byte (fun _ _ _ => rfl) h) hs
  · exact byte (fun v t h => word (fun _ _ _ => rfl) h) hs
  · rfl
  · exact byte (fun _ _ _ => rfl) hs
  · exact byte (fun _ _ _ => rfl) hs
  · exact byte (fun _ _ _ => rfl) hs
  · exact byte (fun _ _ _ => rfl) hs
  · rfl
  · rfl

end Sys2Proof

namespace Sys2Proof.Machine

/-- A fetch only moves IP, forward and not past CAP: whatever it answers, the state it leaves is `s` with another IP. -/
theorem fetchInstr_source {s : State} (hc : s.cfg.WF) (hi : s.ip.toNat ≤ s.cfg.cap) :
    ∃ ip : Word, s.fetchInstr.source = { s with ip := ip } ∧ s.ip.toNat ≤ ip.toNat ∧ ip.toNat ≤ s.cfg.cap := by
  refine decodeWith_keeps (fetchByte := State.fetchByte) (fetchWord := State.fetchWord)
    (P := fun t => ∃ ip : Word, t = { s with ip := ip } ∧ s.ip.toNat ≤ ip.toNat ∧ ip.toNat ≤ s.cfg.cap)
    ?_ ?_ ⟨s.ip, rfl, Nat.le_refl _, hi⟩
  · rintro t v u hf ⟨ip, rfl, h1, h2⟩
    obtain ⟨hle, -, rfl⟩ := fetchByte_eq_some.1 hf
    simp only at hle
    refine ⟨ip + 1#16, rfl, ?_, ?_⟩ <;> rw [BitVec.toNat_add] <;> simp <;> omega
  · rintro t v u hf ⟨ip, rfl, h1, h2⟩
    obtain ⟨hle, -, rfl⟩ := fetchWord_eq_some.1 hf
    simp only at hle
    refine ⟨ip + 2#16, rfl, ?_, ?_⟩ <;> rw [BitVec.toNat_add] <;> simp <;> omega

/-- A fetch only moves IP, in any machine. -/
theorem fetchInstr_moves_ip_only (s : State) : ∃ ip : Word, s.fetchInstr.source = { s with ip := ip } := by
  refine decodeWith_keeps (fetchByte := State.fetchByte) (fetchWord := State.fetchWord)
    (P := fun t => ∃ ip : Word, t = { s with ip := ip }) ?_ ?_ ⟨s.ip, rfl⟩
  · rintro t v u hf ⟨ip, rfl⟩; obtain ⟨-, -, rfl⟩ := fetchByte_eq_some.1 hf; exact ⟨_, rfl⟩
  · rintro t v u hf ⟨ip, rfl⟩; obtain ⟨-, -, rfl⟩ := fetchWord_eq_some.1 hf; exact ⟨_, rfl⟩

/-! ## The bytes at IP -/

theorem bytesAtIp_length (s : State) : s.bytesAtIp.length = s.cfg.cap - s.ip.toNat := by simp [State.bytesAtIp]

theorem bytesAtIp_nil {s : State} (h : s.cfg.cap ≤ s.ip.toNat) : s.bytesAtIp = [] := by
  rw [← List.length_eq_zero_iff, bytesAtIp_length]; omega

theorem ip_succ {s : State} (hc : s.cfg.WF) (h : s.ip.toNat < s.cfg.cap) : (s.ip + 1#16).toNat = s.ip.toNat + 1 := by
  have := hc.2
  rw [BitVec.toNat_add]; simp; omega

theorem bytesAtIp_cons {s : State} (hc : s.cfg.WF) (h : s.ip.toNat < s.cfg.cap) :
    s.bytesAtIp = s.byteAt s.ip.toNat :: { s with ip := s.ip + 1#16 }.bytesAtIp := by
  have h1 := ip_succ hc h
  obtain ⟨n, hn⟩ : ∃ n, s.cfg.cap - s.ip.toNat = n + 1 := ⟨s.cfg.cap - s.ip.toNat - 1, by omega⟩
  simp only [State.bytesAtIp, h1]
  rw [hn, show s.cfg.cap - (s.ip.toNat + 1) = n by omega, List.range_succ_eq_map]
  simp only [List.map_cons, List.map_map, Nat.add_zero, List.cons.injEq, true_and]
  refine List.map_congr_left fun k _ => ?_
  simp only [Function.comp, State.byteAt]
  congr 1; omega

theorem takeByte_bytesAtIp (s : State) (hc : s.cfg.WF) :
    takeByte s.bytesAtIp = s.fetchByte.map (fun p => (p.1, p.2.bytesAtIp)) := by
  by_cases h : s.ip.toNat < s.cfg.cap
  · have : s.fetchByte = some (s.byteAt s.ip.toNat, { s with ip := s.ip + 1#16 }) := fetchByte_eq_some.2 ⟨h, rfl, rfl⟩
    rw [this, bytesAtIp_cons hc h]; rfl
  · rw [bytesAtIp_nil (by omega), fetchByte_eq_none.2 (by omega)]; rfl

theorem takeWord_bytesAtIp (s : State) (hc : s.cfg.WF) :
    takeWord s.bytesAtIp = s.fetchWord.map (fun p => (p.1, p.2.bytesAtIp)) := by
  by_cases h : s.ip.toNat + 2 ≤ s.cfg.cap
  · have : s.fetchWord = some (_, { s with ip := s.ip + 2#16 }) := fetchWord_eq_some.2 ⟨h, rfl, rfl⟩
    have h1 := ip_succ hc (show s.ip.toNat < s.cfg.cap by omega)
    rw [this, bytesAtIp_cons hc (by omega),
      bytesAtIp_cons (s := { s with ip := s.ip + 1#16 }) hc (by simp only [h1]; omega)]
    simp only [h1, takeWord, Option.map]
    rw [show s.ip + 1#16 + 1#16 = s.ip + 2#16 by rw [BitVec.add_assoc]; rfl]; rfl
  · rw [fetchWord_eq_none.2 (by omega)]
    by_cases h' : s.ip.toNat < s.cfg.cap
    · have h1 := ip_succ hc h'
      rw [bytesAtIp_cons hc h', bytesAtIp_nil (s := { s with ip := s.ip + 1#16 }) (by simp only [h1]; omega)]; rfl
    · rw [bytesAtIp_nil (by omega)]; rfl

/-- The machine's fetch decodes the bytes at IP: Decode.lean's `decode` on them is the fetch seen through `bytesAtIp`. -/
theorem decode_bytesAtIp (s : State) (hc : s.cfg.WF) :
    decode s.bytesAtIp = Decoded.map State.bytesAtIp s.fetchInstr := by
  refine decodeWith_map (f := State.bytesAtIp) (P := fun t => t.cfg = s.cfg) (fb := State.fetchByte)
    (fw := State.fetchWord) ?_ ?_ ?_ ?_ rfl
  · intro t ht; exact takeByte_bytesAtIp t (ht ▸ hc)
  · intro t v u ht hf; obtain ⟨-, -, rfl⟩ := fetchByte_eq_some.1 hf; exact ht
  · intro t ht; exact takeWord_bytesAtIp t (ht ▸ hc)
  · intro t v u ht hf; obtain ⟨-, -, rfl⟩ := fetchWord_eq_some.1 hf; exact ht

end Sys2Proof.Machine
end

