-- ==== Sys2Proof/Laws/Commands.lean ====
section
/-! SUPPORT. What a host command can do, said once: the encoder write, the end of a port operation, and every command. -/

namespace Sys2Proof.Machine

/-- An encoder write writes its bytes and advances the cursor, or fails and changes nothing but the replies. -/
theorem encoderWrite_cases (s : State) (codes : List Byte) (i : Instr) :
    (codes.all validCode = true ∧ s.ip.toNat + i.length ≤ s.cfg.cap ∧
      s.encoderWrite codes i = { s with
        mem := Memory.putBytes s.mem s.ip.toNat (encode i)
        ip := s.ip + BitVec.ofNat 16 i.length }.reply .ok .nothing) ∨
    (codes.all validCode = true ∧ s.cfg.cap < s.ip.toNat + i.length ∧
      s.encoderWrite codes i = s.reply (.failed .outOfBounds) .nothing) ∨
    (codes.all validCode = false ∧ s.encoderWrite codes i = s.reply (.failed .invalidRegister) .nothing) := by
  unfold State.encoderWrite
  cases h : codes.all validCode
  · exact .inr (.inr ⟨rfl, rfl⟩)
  · by_cases hl : s.ip.toNat + i.length ≤ s.cfg.cap
    · exact .inl ⟨rfl, hl, by rw [if_pos rfl, if_pos hl]⟩
    · exact .inr (.inl ⟨rfl, by omega, by rw [if_pos rfl, if_neg hl]⟩)

@[simp] theorem port_ok (s t : State) (v : Value) : s.port (.ok (t, v)) = t.reply .ok v := rfl

@[simp] theorem port_error (s : State) (e : ErrorKind) : s.port (.error e) = s.reply (.failed e) .nothing := rfl

/-- `save` to a sink that takes every cell. -/
theorem cmdSave_full {s : State} {accepts : Option Nat} (h : ∀ k, accepts = some k → s.cfg.cap ≤ k) :
    cmdSave accepts s = s.reply .ok (.bytes (Memory.asBytes s.cfg.cap s.mem)) := by
  have hn : sinkTakes s.cfg.cap accepts = s.cfg.cap := by
    cases accepts with
    | none => rfl
    | some k => exact Nat.min_eq_right (h k rfl)
  simp only [cmdSave, hn, if_true]
  rw [List.take_of_length_le (by simp [Memory.asBytes])]

/-- `save` to a sink that refuses a cell. -/
theorem cmdSave_short {s : State} {k : Nat} (h : k < s.cfg.cap) :
    cmdSave (some k) s = s.reply (.failed .ioError) (.bytes ((Memory.asBytes s.cfg.cap s.mem).take k)) := by
  have hn : sinkTakes s.cfg.cap (some k) = k := Nat.min_eq_left (Nat.le_of_lt h)
  simp only [cmdSave, hn]
  rw [if_neg (Nat.ne_of_lt h)]

/-- `load` from a source of CAP bytes or more. -/
theorem cmdLoad_full {s : State} {source : List Byte} (h : s.cfg.cap ≤ source.length) :
    cmdLoad source s = { s.resetCore with
      mem := Memory.ofCells s.cfg.cap (fun a => source.getD a Memory.blank) }.reply .ok .nothing := by
  unfold cmdLoad
  exact if_pos h

/-- `load` from a shorter source. -/
theorem cmdLoad_short {s : State} {source : List Byte} (h : source.length < s.cfg.cap) :
    cmdLoad source s = { s.resetCore with
      mem := Memory.ofCells s.cfg.cap (Config.freeByte s.resetCore.freeCtr)
      freeCtr := s.resetCore.freeCtr + 1 }.reply (.failed .ioError) .nothing := by
  unfold cmdLoad
  exact if_neg (Nat.not_le.2 h)

/-- Everything a command can do. -/
inductive PerformCase (s : State) (c : Command) : State → Prop where
  | started (h : c = .run) : PerformCase s c s.startRun
  | reset (h : c = .reset) : PerformCase s c (s.resetCore.reply .ok .nothing)
  | kept (st : Status) (v : Value) (h : st = .ok ∨ st = .failed .invalidRegister ∨ st = .failed .outOfBounds ∨
      (st = .failed .ioError ∧ ∃ k, c = .save (some k) ∧ k < s.cfg.cap)) : PerformCase s c (s.reply st v)
  | loaded (source : List Byte) (hc : c = .load source) (f : Nat → Byte) (n : Nat) (st : Status)
      (h : st = .ok ∨ (st = .failed .ioError ∧ source.length < s.cfg.cap)) :
      PerformCase s c ({ s.resetCore with mem := Memory.ofCells s.cfg.cap f, freeCtr := n }.reply st .nothing)
  | encoded (i : Instr) (h : s.ip.toNat + i.length ≤ s.cfg.cap) :
      PerformCase s c ({ s with
        mem := Memory.putBytes s.mem s.ip.toNat (encode i)
        ip := s.ip + BitVec.ofNat 16 i.length }.reply .ok .nothing)
  | wroteReg (x : Reg) (w : Word) : PerformCase s c ((s.writeReg x w).reply .ok .nothing)
  | wroteByte (m : Memory) (a : Nat) (v : Byte) (h : Memory.writeByte s.cfg.cap s.mem a v = .ok m) :
      PerformCase s c ({ s with mem := m }.reply .ok .nothing)
  | wroteWord (m : Memory) (a : Nat) (v : Word) (h : Memory.writeWord s.cfg.cap s.mem a v = .ok m) :
      PerformCase s c ({ s with mem := m }.reply .ok .nothing)

theorem encoderWrite_performCase (s : State) (c : Command) (codes : List Byte) (i : Instr) :
    PerformCase s c (s.encoderWrite codes i) := by
  rcases encoderWrite_cases s codes i with ⟨-, h, e⟩ | ⟨-, -, e⟩ | ⟨-, e⟩ <;> rw [e]
  · exact .encoded i h
  · exact .kept _ _ (.inr (.inr (.inl rfl)))
  · exact .kept _ _ (.inr (.inl rfl))

theorem perform_cases (s : State) (c : Command) : PerformCase s c (s.perform c) := by
  have bad : ∀ v, PerformCase s c (s.reply (.failed .invalidRegister) v) := fun v => .kept _ _ (.inr (.inl rfl))
  have out : ∀ v, PerformCase s c (s.reply (.failed .outOfBounds) v) := fun v => .kept _ _ (.inr (.inr (.inl rfl)))
  have good : ∀ v, PerformCase s c (s.reply .ok v) := fun v => .kept _ _ (.inl rfl)
  cases c with
  | run => exact .started rfl
  | reset => exact .reset rfl
  | save accepts =>
    refine .kept _ _ ?_
    cases accepts with
    | none => exact .inl (by simp [sinkTakes])
    | some k =>
      by_cases hk : k < s.cfg.cap
      · exact .inr (.inr (.inr ⟨by simp [sinkTakes]; omega, k, rfl, hk⟩))
      · exact .inl (by simp [sinkTakes]; omega)
  | load source =>
    simp only [State.perform, cmdLoad]
    split
    · exact .loaded source rfl _ _ _ (.inl rfl)
    · rename_i h; exact .loaded source rfl _ _ _ (.inr ⟨rfl, Nat.lt_of_not_le h⟩)
  | writeMovToReg r imm => exact encoderWrite_performCase _ _ _ _
  | writeMovToRam addr r => exact encoderWrite_performCase _ _ _ _
  | writeMovFromRam r addr => exact encoderWrite_performCase _ _ _ _
  | writeDumpreg => exact encoderWrite_performCase s _ [] .dumpreg
  | writeAdd d src => exact encoderWrite_performCase _ _ _ _
  | writeSub d src => exact encoderWrite_performCase _ _ _ _
  | writeInc r => exact encoderWrite_performCase _ _ _ _
  | writeDec r => exact encoderWrite_performCase _ _ _ _
  | writeRet => exact encoderWrite_performCase s _ [] .ret
  | get code =>
    rcases regCheck_cases code with ⟨-, x, e⟩ | ⟨-, e⟩ <;> simp only [State.perform, cmdGet, e]
    · exact good _
    · exact bad _
  | set code v =>
    rcases regCheck_cases code with ⟨-, x, e⟩ | ⟨-, e⟩ <;> simp only [State.perform, cmdSet, e]
    · exact .wroteReg x v
    · exact bad _
  | increment code =>
    rcases regOp_cases s aluInc code with ⟨x, -, e⟩ | ⟨-, e⟩ <;> simp only [State.perform, cmdIncrement, e]
    · exact .wroteReg x _
    · exact bad _
  | decrement code =>
    rcases regOp_cases s aluDec code with ⟨x, -, e⟩ | ⟨-, e⟩ <;> simp only [State.perform, cmdDecrement, e]
    · exact .wroteReg x _
    · exact bad _
  | name code =>
    rcases regCheck_cases code with ⟨-, x, e⟩ | ⟨-, e⟩ <;> simp only [State.perform, cmdName, e]
    · exact good _
    · exact bad _
  | readByte addr =>
    simp only [State.perform, cmdReadByte, Memory.readByte]
    split
    · exact good _
    · exact out _
  | writeByte addr v =>
    simp only [State.perform, cmdWriteByte]
    cases e : Memory.writeByte s.cfg.cap s.mem addr v with
    | ok m => exact .wroteByte m addr v e
    | error k => rw [(Memory.writeByte_eq_error.1 e).2]; exact out _
  | readWord addr =>
    simp only [State.perform, cmdReadWord, Memory.readWord]
    split
    · exact good _
    · exact out _
  | writeWord addr v =>
    simp only [State.perform, cmdWriteWord]
    cases e : Memory.writeWord s.cfg.cap s.mem addr v with
    | ok m => exact .wroteWord m addr v e
    | error k => rw [(Memory.writeWord_eq_error.1 e).2]; exact out _

/-- The idle core waits, or carries out the next command. -/
theorem serveHost_cases (s : State) :
    (s.commands = [] ∧ s.serveHost = s) ∨
    ∃ c rest, s.commands = c :: rest ∧ s.serveHost = { s with commands := rest }.perform c := by
  unfold State.serveHost
  split
  · exact .inl ⟨‹_›, rfl⟩
  · exact .inr ⟨_, _, ‹_›, rfl⟩

end Sys2Proof.Machine
end

