-- ==== Sys2Proof/Laws/PerInstr.lean ====
section
/-! SUPPORT. Facts proved of every instruction, one lemma per constructor. Family `Encoding`: the encoding starts with the
opcode byte, has the instruction's length, and the length is 1, 2 or 4 (spec/30_encoding.md R80, R81). -/

namespace Sys2Proof.Laws.Encoding

def Statement (i : Instr) : Prop :=
  (encode i).length = i.length ∧ (encode i).head? = some i.opcode ∧ (i.length = 1 ∨ i.length = 2 ∨ i.length = 4)

theorem movToReg (r : Byte) (imm : Word) : Statement (.movToReg r imm) :=
  ⟨rfl, rfl, .inr (.inr rfl)⟩

theorem movToRam (addr : Word) (r : Byte) : Statement (.movToRam addr r) :=
  ⟨rfl, rfl, .inr (.inr rfl)⟩

theorem movFromRam (r : Byte) (addr : Word) : Statement (.movFromRam r addr) :=
  ⟨rfl, rfl, .inr (.inr rfl)⟩

theorem dumpreg : Statement .dumpreg :=
  ⟨rfl, rfl, .inl rfl⟩

theorem add (d s : BitVec 4) : Statement (.add d s) :=
  ⟨rfl, rfl, .inr (.inl rfl)⟩

theorem sub (d s : BitVec 4) : Statement (.sub d s) :=
  ⟨rfl, rfl, .inr (.inl rfl)⟩

theorem inc (r : Byte) : Statement (.inc r) :=
  ⟨rfl, rfl, .inr (.inl rfl)⟩

theorem dec (r : Byte) : Statement (.dec r) :=
  ⟨rfl, rfl, .inr (.inl rfl)⟩

theorem ret : Statement .ret :=
  ⟨rfl, rfl, .inl rfl⟩

end Sys2Proof.Laws.Encoding
end

