-- ==== Sys2Proof/Tests/Slice0.lean ====
section
/-! SUPPORT. Tests. The expected values come from spec/: the bytes of 30_encoding.md section 2 and of 95_test_vectors.md, whose
vector each test names. The witnesses at the end show that the hypotheses of every statement can be met. -/

namespace Sys2Proof.Tests
open Sys2Proof.Machine Sys2Proof.Claims

/-! ## WellFormed refuses -/

theorem test_wf_movToReg : (Instr.movToReg 0x02#8 5#16).wf = false := by decide
theorem test_wf_movToRam : (Instr.movToRam 0#16 0xFF#8).wf = false := by decide
theorem test_wf_movFromRam : (Instr.movFromRam 0x80#8 0#16).wf = false := by decide
theorem test_wf_add_destination : (Instr.add 0x2#4 0x1#4).wf = false := by decide
theorem test_wf_add_source : (Instr.add 0x1#4 0x2#4).wf = false := by decide
theorem test_wf_sub_destination : (Instr.sub 0xF#4 0x0#4).wf = false := by decide
theorem test_wf_sub_source : (Instr.sub 0x0#4 0x8#4).wf = false := by decide
theorem test_wf_inc : (Instr.inc 0x02#8).wf = false := by decide
theorem test_wf_dec : (Instr.dec 0x80#8).wf = false := by decide
theorem test_wf_valid : [Instr.movToReg 0x01#8 65535#16, .movToRam 65535#16 0x00#8, .movFromRam 0x01#8 0#16, .dumpreg,
    .add 0x1#4 0x0#4, .sub 0x0#4 0x1#4, .inc 0x01#8, .dec 0x00#8, .ret].all Instr.wf = true := by decide

/-! ## Decoding: bytes written out in binary from 30_encoding.md R82, R83 -/

/-- Opcode 0x00, r8 = 1, imm16 = 0xFFFE low byte first. -/
theorem test_decode_movToReg :
    decode [0b00000000#8, 0b00000001#8, 0b11111110#8, 0b11111111#8] = .instr (.movToReg 0x01#8 0xFFFE#16) [] := by decide
/-- Opcode 0x01, addr16 = 0x1234 low byte first, then r8 = 1 (V-E2). -/
theorem test_decode_movToRam :
    decode [0b00000001#8, 0b00110100#8, 0b00010010#8, 0b00000001#8] = .instr (.movToRam 0x1234#16 0x01#8) [] := by decide
/-- Opcode 0x02, r8 = 1, addr16 = 0x0100 low byte first (V-M8). -/
theorem test_decode_movFromRam :
    decode [0b00000010#8, 0b00000001#8, 0b00000000#8, 0b00000001#8] = .instr (.movFromRam 0x01#8 0x0100#16) [] := by decide
theorem test_decode_dumpreg : decode [0b00000011#8, 0xAA#8] = .instr .dumpreg [0xAA#8] := by decide
/-- The destination is the high nibble (V-A2). -/
theorem test_decode_add : decode [0b00000100#8, 0b00010000#8] = .instr (.add 0x1#4 0x0#4) [] := by decide
theorem test_decode_sub : decode [0b00000101#8, 0b00000001#8] = .instr (.sub 0x0#4 0x1#4) [] := by decide
theorem test_decode_inc : decode [0b00000110#8, 0b00000001#8] = .instr (.inc 0x01#8) [] := by decide
theorem test_decode_dec : decode [0b00000111#8, 0b10000000#8] = .instr (.dec 0x80#8) [] := by decide
theorem test_decode_ret : decode [0b00001000#8, 0x09#8] = .instr .ret [0x09#8] := by decide
/-- V-D1, V-D2. -/
theorem test_decode_unknown : decode [0x09#8] = .stop .unknownOpcode [] ∧ decode [0xFF#8] = .stop .unknownOpcode [] := by
  decide
/-- A word is there whole or not at all (V-M16), and the register code of MovToRam comes last (V-M17). -/
theorem test_decode_missing : decode [0x00#8, 0x01#8, 0xFF#8] = .stop .missingByte [0xFF#8] ∧
    decode [0x01#8, 0x10#8, 0x00#8] = .stop .missingByte [] ∧ decode [] = .stop .missingByte [] := by decide
/-- The encoder's bytes for the boundary operands (S4). -/
theorem test_encode_boundaries :
    [Instr.movToReg 0x01#8 65535#16, .movToRam 8191#16 0x01#8, .movFromRam 0x01#8 8191#16, .add 0x0#4 0x1#4,
      .sub 0x1#4 0x1#4].map encode =
    [[0x00#8, 0x01#8, 0xFF#8, 0xFF#8], [0x01#8, 0xFF#8, 0x1F#8, 0x01#8], [0x02#8, 0x01#8, 0xFF#8, 0x1F#8], [0x04#8, 0x01#8],
      [0x05#8, 0x11#8]] := by decide
/-- Table words: bit 0 is the least significant bit of the first byte; bits above `nbits` are 0. -/
theorem test_decodeTableWord : decodeTableWord 32 0x01123401 = some (.movToRam 0x1234#16 0x01#8) ∧
    decodeTableWord 16 0x1004 = some (.add 0x1#4 0x0#4) ∧ decodeTableWord 8 0xFF08 = some .ret ∧
    decodeTableWord 8 0x09 = none ∧ decodeTableWord 8 0x00 = some (.movToReg 0x00#8 0#16) := by decide

/-! ## One step on a small state -/

/-- A machine of `cap` bytes with `bytes` from address 0, in the given run state, with the given A, B and IP. -/
def small (cap : Nat) (bytes : List Byte) (run : RunState) (a b ip : Word) : State :=
  { State.powerOn { Config.standard with cap := cap } with
    mem := Memory.putBytes [] 0 bytes, runState := run, a := a, b := b, ip := ip }

/-- A run in progress at address 0. -/
def running (cap : Nat) (bytes : List Byte) (a b : Word := 0#16) (ip : Word := 0#16) : State :=
  small cap bytes .running a b ip

/-- An idle core whose host issues `c` next. -/
def serving (cap : Nat) (c : Command) (bytes : List Byte := []) (a b ip : Word := 0#16) : State :=
  { small cap bytes .idle a b ip with commands := [c] }

/-- The state after a step, `s` itself where there is none. -/
def after (s : State) : State :=
  match step s with
  | .next t => t
  | .fault _ => s
  | .refused _ => s

/-- A, B, IP as numbers. -/
def regs (s : State) : Nat × Nat × Nat := (s.a.toNat, s.b.toNat, s.ip.toNat)

/-- The statuses of the completed commands. -/
def statuses (s : State) : List Status := s.replies.map Reply.status

/-- V-M2. -/
theorem test_movToReg : regs (after (running 8192 [0x00#8, 0x01#8, 0xFF#8, 0xFF#8] 1#16 2#16)) = (1, 65535, 4) := by decide
/-- V-M11. -/
theorem test_movToReg_invalid : let t := after (running 8192 [0x00#8, 0x02#8, 0x05#8, 0x00#8] 7#16 8#16)
    regs t = (7, 8, 4) ∧ statuses t = [.failed .invalidRegister] ∧ t.runState = .idle := by decide
/-- V-M5: the highest usable address. -/
theorem test_movToRam : let t := after (running 8192 [0x01#8, 0xFE#8, 0x1F#8, 0x01#8] 0#16 0x1234#16)
    t.byteAt 8190 = 0x34#8 ∧ t.byteAt 8191 = 0x12#8 ∧ regs t = (0, 0x1234, 4) ∧ t.runState = .running := by decide
/-- V-M6: no partial write. -/
theorem test_movToRam_lastCell : let t := after (running 8192 [0x01#8, 0xFF#8, 0x1F#8, 0x00#8] 0x1234#16)
    t.byteAt 8191 = 0x00#8 ∧ regs t = (0x1234, 0, 4) ∧ statuses t = [.failed .outOfBounds] := by decide
/-- V-M9: the instruction's own first bytes. -/
theorem test_movFromRam : regs (after (running 8192 [0x02#8, 0x00#8, 0x00#8, 0x00#8] 7#16)) = (2, 0, 4) := by decide
/-- V-M10. -/
theorem test_movFromRam_lastCell : let t := after (running 8192 [0x02#8, 0x00#8, 0xFF#8, 0x1F#8] 7#16)
    regs t = (7, 0, 4) ∧ statuses t = [.failed .outOfBounds] := by decide
/-- V-S2, the second Dumpreg. -/
theorem test_dumpreg : let t := after (running 8192 [0x03#8, 0x03#8, 0x08#8] 1#16 2#16 1#16)
    t.out = [⟨1#16, 2#16, 2#16⟩] ∧ regs t = (1, 2, 2) := by decide
/-- V-A2: the destination is the high nibble. -/
theorem test_add : regs (after (running 8192 [0x04#8, 0x10#8] 5#16 3#16)) = (5, 8, 2) := by decide
/-- V-A3: both operands are the destination, and the sum wraps. -/
theorem test_add_same_wraps : regs (after (running 8192 [0x04#8, 0x00#8] 0x8000#16)) = (0, 0, 2) := by decide
/-- V-A4. -/
theorem test_sub : regs (after (running 8192 [0x05#8, 0x10#8] 5#16 3#16)) = (5, 65534, 2) := by decide
/-- V-A9, of Sub: the source nibble is checked too. -/
theorem test_sub_invalid : let t := after (running 8192 [0x05#8, 0x12#8] 1#16 2#16)
    regs t = (1, 2, 2) ∧ statuses t = [.failed .invalidRegister] := by decide
/-- V-A5. -/
theorem test_inc_wraps : regs (after (running 8192 [0x06#8, 0x00#8] 65535#16)) = (0, 0, 2) := by decide
/-- V-A10. -/
theorem test_inc_invalid : let t := after (running 8192 [0x06#8, 0x02#8] 1#16)
    regs t = (1, 0, 2) ∧ statuses t = [.failed .invalidRegister] := by decide
/-- V-A6. -/
theorem test_dec_wraps : regs (after (running 8192 [0x07#8, 0x01#8])) = (0, 65535, 2) := by decide
/-- V-A11: all eight bits of the register byte count. -/
theorem test_dec_invalid : let t := after (running 8192 [0x07#8, 0x80#8] 1#16)
    regs t = (1, 0, 2) ∧ statuses t = [.failed .invalidRegister] := by decide
/-- V-S3. -/
theorem test_ret : let t := after (running 8192 [0x08#8] 4#16 5#16)
    regs t = (4, 5, 0) ∧ statuses t = [.ok] ∧ t.runState = .idle := by decide
/-- V-S5: Ret in the last cell. -/
theorem test_ret_lastCell : let t := after (running 5 [0x00#8, 0x00#8, 0xAA#8, 0xAA#8, 0x08#8] 0xAAAA#16 0#16 4#16)
    regs t = (0xAAAA, 0, 0) ∧ statuses t = [.ok] := by decide
/-- V-D3 and the fetch failures of V-M15 to V-M18, V-A12 and V-S6: IP at the first byte or word not consumed. -/
theorem test_fetch_failures :
    regs (after (running 8192 [0x06#8, 0x00#8, 0x0A#8] 1#16 0#16 2#16)) = (1, 0, 3) ∧
    regs (after (running 6 [0x00#8, 0x00#8, 0xAA#8, 0xAA#8, 0x00#8, 0x01#8] 0xAAAA#16 0#16 4#16)) = (0xAAAA, 0, 6) ∧
    regs (after (running 7 [0x00#8, 0x00#8, 0xAA#8, 0xAA#8, 0x00#8, 0x01#8, 0xFF#8] 0#16 0#16 4#16)) = (0, 0, 6) ∧
    regs (after (running 7 [0x00#8, 0x00#8, 0xAA#8, 0xAA#8, 0x01#8, 0x10#8, 0x00#8] 0#16 0#16 4#16)) = (0, 0, 7) ∧
    regs (after (running 6 [0x00#8, 0x00#8, 0xAA#8, 0xAA#8, 0x01#8, 0x10#8] 0#16 0#16 4#16)) = (0, 0, 5) ∧
    regs (after (running 5 [0x00#8, 0x00#8, 0xAA#8, 0xAA#8, 0x04#8] 0#16 0#16 4#16)) = (0, 0, 5) ∧
    regs (after (running 5 [] 0#16 0#16 5#16)) = (0, 0, 5) := by decide

/-! ## Host commands -/

/-- V-E3: the bytes and the cursor of an encoder write. -/
theorem test_writeAdd : let t := after (serving 8192 (.writeAdd 0x01#8 0x00#8) [] 0#16 0#16 8#16)
    t.byteAt 8 = 0x04#8 ∧ t.byteAt 9 = 0x10#8 ∧ t.ip = 10#16 ∧ statuses t = [.ok] := by decide
/-- V-E5: the last two cells. -/
theorem test_writeInc_lastCells : let t := after (serving 8192 (.writeInc 0x00#8) [] 0#16 0#16 8190#16)
    t.byteAt 8190 = 0x06#8 ∧ t.ip = 8192#16 ∧ statuses t = [.ok] := by decide
/-- V-E4, V-E6, V-E8: nothing is written, the cursor stays, the register error comes first. -/
theorem test_encoder_failures :
    (after (serving 8192 (.writeMovToReg 0x00#8 1#16) [] 0#16 0#16 8190#16)).replies = [⟨.failed .outOfBounds, .nothing⟩] ∧
    (after (serving 8192 (.writeMovToReg 0x00#8 1#16) [] 0#16 0#16 8190#16)).mem = [] ∧
    regs (after (serving 8192 .writeRet [] 0#16 0#16 8192#16)) = (0, 0, 8192) ∧
    (after (serving 8192 (.writeAdd 0x00#8 0x07#8) [] 0#16 0#16 8191#16)).replies = [⟨.failed .invalidRegister, .nothing⟩] := by
  decide
/-- V-H1. -/
theorem test_reset_command : let t := after (serving 8192 .reset [0x00#8, 0x00#8, 0x05#8] 8#16 3#16 11#16)
    t.mem = [] ∧ regs t = (0, 0, 0) ∧ statuses t = [.ok] := by decide
/-- V-H2: `run` clears no register. -/
theorem test_run : let t := after (serving 8192 .run [0x08#8] 8#16 3#16 11#16)
    regs t = (8, 3, 0) ∧ t.runState = .running ∧ t.replies = [] := by decide
/-- S5 in a machine of four cells: `save` changes nothing. -/
theorem test_save : let t := after (serving 4 (.save none) [0x00#8, 0x00#8, 0x05#8] 8#16 3#16 2#16)
    t.replies = [⟨.ok, .bytes [0x00#8, 0x00#8, 0x05#8, 0x00#8]⟩] ∧ regs t = (8, 3, 2) := by decide
/-- S5, V-H7: `load` takes CAP bytes, ignores the surplus and zeroes the registers. -/
theorem test_load : let t := after (serving 3 (.load [0x00#8, 0x07#8, 0x00#8, 0x09#8]) [0xFF#8] 7#16 9#16 2#16)
    t.mem = [(1, 0x07#8)] ∧ regs t = (0, 0, 0) ∧ statuses t = [.ok] := by decide
/-- V-H6. -/
theorem test_load_short : let t := after (serving 3 (.load [0x00#8, 0x07#8]) [] 7#16 9#16 2#16)
    regs t = (0, 0, 0) ∧ statuses t = [.failed .ioError] := by decide
/-- V-H3, V-H4, S2. -/
theorem test_register_port :
    (after (serving 8192 (.get 0x02#8))).replies = [⟨.failed .invalidRegister, .nothing⟩] ∧
    regs (after (serving 8192 (.increment 0x00#8) [] 65535#16)) = (0, 0, 0) ∧
    regs (after (serving 8192 (.set 0x01#8 65535#16) [] 4#16)) = (4, 65535, 0) ∧
    (after (serving 8192 (.get 0x01#8) [] 4#16 9#16)).replies = [⟨.ok, .word 9#16⟩] ∧
    (after (serving 8192 (.name 0x00#8))).replies = [⟨.ok, .text "a"⟩] := by decide
/-- V-H5, S3. -/
theorem test_memory_port :
    (after (serving 8192 (.readByte 8192))).replies = [⟨.failed .outOfBounds, .nothing⟩] ∧
    (after (serving 8192 (.writeWord 0 0x1234#16))).mem = [(0, 0x34#8), (1, 0x12#8)] ∧
    (after (serving 8192 (.readWord 0) [0x34#8, 0x12#8])).replies = [⟨.ok, .word 0x1234#16⟩] ∧
    (after (serving 8192 (.writeWord 8191 1#16))).mem = [] := by decide

/-! ## Fetching, tracing, rendering -/

/-- A table word placed at reset runs as the first instruction (V-M2's bytes). -/
theorem test_withFetchWord :
    regs (after (State.reset.withFetchWord 32 0xFFFF0100)) = (0, 65535, 4) := by decide
/-- P2: the record of `mov_from_ram b, [256]`, the third of its run, and its line (S9's pattern). -/
theorem test_trace : let s := running 8192 [0x02#8, 0x01#8, 0x00#8, 0x01#8]
    let t := after { s with cfg := { s.cfg with dbgEn := true }, icount := 2 }
    t.trace = [⟨2, 0x02#8, [.reg 0x01#8, .addr 256#16]⟩] ∧ t.icount = 3 ∧
    t.trace.map (TraceRecord.line ", ") = ["debug [02]: mov_from_ram b, [256]"] := by decide
/-- S9 and decision D21. -/
theorem test_trace_lines : TraceRecord.line ", " ⟨0, 0x00#8, [.reg 0x00#8, .imm 5#16]⟩ = "debug [00]: mov_to_reg a, 5" ∧
    TraceRecord.line ", " ⟨3, 0x08#8, []⟩ = "debug [03]: ret" ∧ lineLabel 100 = "100" := by decide
/-- P2's Dumpreg text (S10). -/
theorem test_dumpreg_lines :
    OutRecord.lines ⟨48879#16, 48880#16, 15#16⟩ = ["a: 48879", "b: 48880", "ip: 15"] := by decide
/-- Decision D4's numbers. -/
theorem test_status_codes : [Status.ok, .failed .outOfBounds, .failed .invalidRegister, .failed .unknownOpcode,
    .failed .ioError].map Status.code = [0, 1, 2, 3, 4] := by decide
theorem test_mnemonics : [Command.writeAdd 0x00#8 0x00#8, .load [], .get 0x00#8].map Command.mnemonic =
    [some "add", some "load", none] := by decide
/-- CAP outside its range stops the machine (log 3). -/
theorem test_capacity : step (running 0 []) = .fault .capacityOutOfRange ∧
    step (running 65536 []) = .fault .capacityOutOfRange := ⟨rfl, rfl⟩

/-! ## Witnesses: the hypotheses of every statement are met, each clause at the edge of its range -/

theorem inv_iff (s : State) : s.Inv ↔ s.cfg.WF ∧ Memory.wf s.mem ∧ Memory.within s.cfg.cap s.mem ∧
    s.ip.toNat ≤ s.cfg.cap ∧ s.runState ≠ .halted :=
  ⟨fun h => ⟨h.cap, h.mem, h.within, h.ip, h.run⟩, fun ⟨h1, h2, h3, h4, h5⟩ => ⟨h1, h2, h3, h4, h5⟩⟩

theorem witness_EncodedInstructionDecodesToItself :
    ((running 3 [0x04#8, 0x10#8]).Inv ∧ (running 3 [0x04#8, 0x10#8]).runState = .running ∧
      encode (.add 0x1#4 0x0#4) <+: (running 3 [0x04#8, 0x10#8]).bytesAtIp) ∧
    (State.reset.cfg.WF ∧ (8191#16).toNat = State.reset.cfg.cap - 1) ∧
    ((running 1 []).cfg.WF ∧ (0#16).toNat = (running 1 []).cfg.cap - 1) ∧
    ((running 65535 []).cfg.WF ∧ (65534#16).toNat = (running 65535 []).cfg.cap - 1) := by
  simp only [inv_iff]; decide

theorem witness_DecodedBytesAreTheEncoding : decode [0x05#8, 0x23#8, 0x08#8] = .instr (.sub 0x2#4 0x3#4) [0x08#8] := by decide

theorem witness_DecoderStopsOnlyForTwoReasons : decode [0x09#8] = .stop .unknownOpcode [] ∧
    decode [0xFF#8, 0x00#8] = .stop .unknownOpcode [0x00#8] ∧ decode [] = .stop .missingByte [] ∧
    decode [0x00#8, 0x00#8, 0x07#8] = .stop .missingByte [0x07#8] := by decide

theorem witness_OpcodeByteSelectsInstruction : 9 ≤ (0x09#8).toNat ∧ 9 ≤ (0xFF#8).toNat := by decide

theorem witness_WordOperandsAreLittleEndian : State.reset.Inv ∧ (8190#16).toNat + 2 ≤ State.reset.cfg.cap ∧
    State.reset.cfg.cap < (8191#16).toNat + 2 ∧ State.reset.cfg.cap < (65535#16).toNat + 2 := by
  simp only [inv_iff]; decide

theorem witness_ByteAccessPrimitives : Memory.wf [(7, 0x01#8)] ∧ 8 ≤ 8 ∧ 7 < 8 := by decide

theorem witness_WordAccessPrimitives : Memory.wf [(7, 0x01#8)] ∧ 8 < 7 + 2 ∧ 1 < 0 + 2 ∧ 6 + 2 ≤ 8 := by decide

theorem witness_ReadAfterWriteLaws : Memory.wf [(7, 0x01#8)] ∧
    Memory.writeWord 8 [(7, 0x01#8)] 6 0x0200#16 = .ok [(7, 0x02#8)] ∧
    Memory.writeByte 8 [(7, 0x01#8)] 7 0x00#8 = .ok [] := ⟨by decide, rfl, rfl⟩

theorem witness_MixedWidthAccessSeesTheCells : Memory.wf [(7, 0x01#8)] ∧
    Memory.writeWord 8 [(7, 0x01#8)] 5 0x0203#16 = .ok [(5, 0x03#8), (6, 0x02#8), (7, 0x01#8)] ∧ 5 + 3 ≤ 8 ∧
    Memory.writeByte 8 [(7, 0x01#8)] 6 0x05#8 = .ok [(6, 0x05#8), (7, 0x01#8)] ∧
    Memory.writeByte 8 [(6, 0x05#8), (7, 0x01#8)] (6 + 1) 0x06#8 = .ok [(6, 0x05#8), (7, 0x06#8)] :=
  ⟨by decide, rfl, by decide, rfl, rfl⟩

theorem witness_ClearAndAsBytesActOnTheWholeArray : 0 < 1 ∧ 8191 < 8192 := by decide

theorem witness_CanonicalMemoriesThatReadAlikeAreEqual : Memory.wf [(7, 0x01#8)] ∧
    ∀ a, Memory.get [(7, 0x01#8)] a = Memory.get [(7, 0x01#8)] a := ⟨by decide, fun _ => rfl⟩

theorem witness_StepRunsTheDecodedInstruction : (running 2 [0x06#8, 0x01#8]).Inv ∧
    (running 2 [0x06#8, 0x01#8]).runState = .running ∧
    decode (running 2 [0x06#8, 0x01#8]).bytesAtIp = .instr (.inc 0x01#8) [] := by
  simp only [inv_iff]; decide

theorem witness_StepAbortsWhereDecodingStops : ((running 3 [0x00#8, 0x01#8, 0x09#8]).Inv ∧
    (running 3 [0x00#8, 0x01#8, 0x09#8]).runState = .running ∧
    decode (running 3 [0x00#8, 0x01#8, 0x09#8]).bytesAtIp = .stop .missingByte [0x09#8]) ∧
    ((running 1 [0x09#8]).Inv ∧ decode (running 1 [0x09#8]).bytesAtIp = .stop .unknownOpcode []) := by
  simp only [inv_iff]; decide

theorem witness_UnknownOpcodeAbortsAndNothingElseRaisesIt :
    AtOpcode (running 1 [0x09#8]) 0x09#8 ∧ AtOpcode (running 1 [0xFF#8]) 0xFF#8 ∧ 0x09 ≤ (0x09#8).toNat ∧
    ∃ t, step (running 1 [0x09#8]) = .next t ∧
      t.replies = (running 1 [0x09#8]).replies ++ [⟨.failed .unknownOpcode, .nothing⟩] := by
  refine ⟨?_, ?_, by decide, _, rfl, rfl⟩ <;> simp only [AtOpcode, inv_iff] <;> decide

theorem witness_IpPointsPastTheInstruction : ((running 2 [0x06#8, 0x01#8]).Inv ∧
    decode (running 2 [0x06#8, 0x01#8]).bytesAtIp = .instr (.inc 0x01#8) [] ∧
    ∃ t, step (running 2 [0x06#8, 0x01#8]) = .next t ∧ t.runState = .running) ∧
    (running 1 [0x08#8]).Inv ∧ decode (running 1 [0x08#8]).bytesAtIp = .instr .ret [] ∧
    ∃ t, step (running 1 [0x08#8]) = .next t := by
  simp only [inv_iff]
  exact ⟨⟨by decide, by decide, _, rfl, rfl⟩, by decide, by decide, _, rfl⟩

theorem witness_MovToRegStepOutcomes :
    (AtOpcode (running 1 [0x00#8]) 0x00#8 ∧ 1 ≤ 0 + 1) ∧
    (AtOpcode (running 2 [0x00#8, 0x01#8]) 0x00#8 ∧ 0 + 1 < 2) ∧ (AtOpcode (running 3 [0x00#8]) 0x00#8 ∧ 3 < 0 + 4) ∧
    (AtOpcode (running 4 [0x00#8, 0x02#8]) 0x00#8 ∧ 0 + 4 ≤ 4 ∧
      2 ≤ ((running 4 [0x00#8, 0x02#8]).byteAt (0 + 1)).toNat) ∧
    (AtOpcode (running 4 [0x00#8, 0x01#8]) 0x00#8 ∧ (running 4 [0x00#8, 0x01#8]).byteAt (0 + 1) = codeOf .B ∧
      (running 4 [0x00#8]).byteAt (0 + 1) = codeOf .A) := by
  repeat' apply And.intro
  all_goals first | decide | (simp only [inv_iff]; decide)

theorem witness_MovToRamStepOutcomes :
    (AtOpcode (running 1 [0x01#8]) 0x01#8 ∧ 1 < 0 + 3) ∧ (AtOpcode (running 2 [0x01#8]) 0x01#8 ∧ 2 < 0 + 3) ∧
    (AtOpcode (running 3 [0x01#8]) 0x01#8 ∧ 0 + 3 = 3) ∧
    (AtOpcode (running 4 [0x01#8, 0x02#8, 0x00#8, 0x01#8]) 0x01#8 ∧
      (running 4 [0x01#8, 0x02#8, 0x00#8, 0x01#8]).byteAt (0 + 3) = codeOf .B ∧
      littleEndian ((running 4 [0x01#8, 0x02#8, 0x00#8, 0x01#8]).byteAt (0 + 1))
        ((running 4 [0x01#8, 0x02#8, 0x00#8, 0x01#8]).byteAt (0 + 2)) = 2#16 ∧ (2#16).toNat + 2 ≤ 4) ∧
    (AtOpcode (running 4 [0x01#8, 0x03#8]) 0x01#8 ∧ (running 4 [0x01#8, 0x03#8]).byteAt (0 + 3) = codeOf .A ∧
      littleEndian ((running 4 [0x01#8, 0x03#8]).byteAt (0 + 1)) ((running 4 [0x01#8, 0x03#8]).byteAt (0 + 2)) = 3#16 ∧
      4 < (3#16).toNat + 2) ∧
    (AtOpcode (running 4 [0x01#8, 0x00#8, 0x00#8, 0x02#8]) 0x01#8 ∧
      2 ≤ ((running 4 [0x01#8, 0x00#8, 0x00#8, 0x02#8]).byteAt (0 + 3)).toNat) := by
  repeat' apply And.intro
  all_goals first | decide | (simp only [inv_iff]; decide)

theorem witness_MovFromRamStepOutcomes :
    (AtOpcode (running 1 [0x02#8]) 0x02#8 ∧ 1 ≤ 0 + 1) ∧
    (AtOpcode (running 2 [0x02#8]) 0x02#8 ∧ 0 + 1 < 2) ∧ (AtOpcode (running 3 [0x02#8]) 0x02#8 ∧ 3 < 0 + 4) ∧
    (AtOpcode (running 4 [0x02#8, 0x02#8]) 0x02#8 ∧ 2 ≤ ((running 4 [0x02#8, 0x02#8]).byteAt (0 + 1)).toNat) ∧
    (AtOpcode (running 4 [0x02#8, 0x01#8, 0x02#8]) 0x02#8 ∧
      (running 4 [0x02#8, 0x01#8, 0x02#8]).byteAt (0 + 1) = codeOf .B ∧
      littleEndian ((running 4 [0x02#8, 0x01#8, 0x02#8]).byteAt (0 + 2))
        ((running 4 [0x02#8, 0x01#8, 0x02#8]).byteAt (0 + 3)) = 2#16 ∧ (2#16).toNat + 2 ≤ 4) ∧
    (AtOpcode (running 4 [0x02#8, 0x00#8, 0x03#8]) 0x02#8 ∧
      littleEndian ((running 4 [0x02#8, 0x00#8, 0x03#8]).byteAt (0 + 2))
        ((running 4 [0x02#8, 0x00#8, 0x03#8]).byteAt (0 + 3)) = 3#16 ∧ 4 < (3#16).toNat + 2) := by
  repeat' apply And.intro
  all_goals first | decide | (simp only [inv_iff]; decide)

theorem witness_AddAndSubStepOutcomes :
    (AtOpcode (running 1 [0x04#8]) 0x04#8 ∧ AtOpcode (running 1 [0x05#8]) 0x05#8 ∧ 1 ≤ 0 + 1) ∧
    (AtOpcode (running 2 [0x04#8, 0x20#8]) 0x04#8 ∧ 2 ≤ ((running 2 [0x04#8, 0x20#8]).byteAt (0 + 1)).toNat / 16) ∧
    (AtOpcode (running 2 [0x05#8, 0x12#8]) 0x05#8 ∧ 2 ≤ ((running 2 [0x05#8, 0x12#8]).byteAt (0 + 1)).toNat % 16) ∧
    (AtOpcode (running 2 [0x04#8, 0x10#8]) 0x04#8 ∧ 0 + 2 ≤ 2 ∧
      ((running 2 [0x04#8, 0x10#8]).byteAt (0 + 1)).toNat = 16 * (codeOf .B).toNat + (codeOf .A).toNat) ∧
    (AtOpcode (running 2 [0x05#8, 0x01#8]) 0x05#8 ∧
      ((running 2 [0x05#8, 0x01#8]).byteAt (0 + 1)).toNat = 16 * (codeOf .A).toNat + (codeOf .B).toNat) := by
  repeat' apply And.intro
  all_goals first | decide | (simp only [inv_iff]; decide)

theorem witness_IncAndDecStepOutcomes :
    (AtOpcode (running 1 [0x06#8]) 0x06#8 ∧ AtOpcode (running 1 [0x07#8]) 0x07#8 ∧ 1 ≤ 0 + 1) ∧
    (AtOpcode (running 2 [0x06#8, 0x02#8]) 0x06#8 ∧ 2 ≤ ((running 2 [0x06#8, 0x02#8]).byteAt (0 + 1)).toNat) ∧
    (AtOpcode (running 2 [0x06#8, 0x01#8]) 0x06#8 ∧ (running 2 [0x06#8, 0x01#8]).byteAt (0 + 1) = codeOf .B ∧ 0 + 2 ≤ 2) ∧
    (AtOpcode (running 2 [0x07#8, 0x00#8]) 0x07#8 ∧ (running 2 [0x07#8, 0x00#8]).byteAt (0 + 1) = codeOf .A) := by
  repeat' apply And.intro
  all_goals first | decide | (simp only [inv_iff]; decide)

theorem witness_DumpregAndRetStepOutcomes :
    AtOpcode (running 1 [0x03#8]) 0x03#8 ∧ AtOpcode (running 1 [0x08#8]) 0x08#8 := by
  simp only [AtOpcode, inv_iff]; decide

theorem witness_LoadsCompleteWithTheRegistersNewValue : (8190#16).toNat + 2 ≤ (running 8192 []).cfg.cap := by decide

theorem witness_StoreCompletesWithALittleEndianWord : Memory.wf (running 8192 [0x01#8]).mem ∧
    cellIndex 8190#16 + 2 ≤ (running 8192 [0x01#8]).cfg.cap := by decide

theorem witness_InvalidRegisterCodesAreRefusedEverywhere :
    2 ≤ (0x02#8).toNat ∧ Instr.dec 0x02#8 ∈ [Instr.movToReg 0x02#8 0#16, .movToRam 0#16 0x02#8, .movFromRam 0x02#8 0#16,
      .inc 0x02#8, .dec 0x02#8] ∧ 2 ≤ (0x2#4).toNat ∧
    Serving (serving 4 (.writeSub 0x01#8 0x02#8)) (.writeSub 0x01#8 0x02#8) [] ∧
    encoderRow (.writeSub 0x01#8 0x02#8) = some ([0x01#8, 0x02#8], [0x05#8, 0x12#8]) ∧ ¬ AllValid [0x01#8, 0x02#8] ∧
    Serving (serving 4 (.name 0x02#8)) (.name 0x02#8) [] := by
  simp only [Serving, inv_iff, AllValid]; decide

theorem witness_DataAddressOutsideMemoryAborts : (running 8192 []).cfg.cap < (8191#16).toNat + 2 ∧
    (running 65535 []).cfg.cap < (65535#16).toNat + 2 := by decide

theorem witness_RegisterInstructionsFrame : RegisterOnly (.movFromRam 0x01#8 6#16) ∧
    (∃ t, exec (.movFromRam 0x01#8 6#16) (running 8 []) = .next t) ∧ RegisterOnly (.add 0x1#4 0x0#4) ∧
    (∃ t, exec (.add 0x1#4 0x0#4) (running 8 []) = .next t ∧ t.runState = .running) ∧
    ∃ t, exec (.add 0x2#4 0x0#4) (running 8 []) = .next t ∧ t.runState = .idle :=
  ⟨trivial, ⟨_, rfl⟩, trivial, ⟨_, rfl, rfl⟩, _, rfl, rfl⟩

theorem witness_StoreFrame : (∃ t, exec (.movToRam 6#16 0x01#8) (running 8 []) = .next t ∧ t.runState = .running) ∧
    ∃ t, exec (.movToRam 7#16 0x01#8) (running 8 []) = .next t ∧ t.runState = .idle :=
  ⟨⟨_, rfl, rfl⟩, _, rfl, rfl⟩

theorem witness_SystemInstructionsFrame : (∃ t, exec .dumpreg (running 8 []) = .next t) ∧
    ∃ t, exec .ret (running 8 []) = .next t := ⟨⟨_, rfl⟩, _, rfl⟩

theorem witness_EveryStepKeepsTheInvariant : (running 2 [0x06#8, 0x01#8]).Inv ∧
    ∃ t, step (running 2 [0x06#8, 0x01#8]) = .next t := ⟨by simp only [inv_iff]; decide, _, rfl⟩

theorem witness_ResetMeetsTheInvariant : ({ Config.standard with cap := 1 } : Config).WF ∧
    ({ Config.standard with cap := 65535 } : Config).WF := by decide

theorem witness_NoStepStopsTheMachine : (running 1 []).cfg.WF ∧ (running 65535 []).cfg.WF ∧ ¬ (running 0 []).cfg.WF ∧
    ¬ (running 65536 []).cfg.WF := by decide

theorem witness_NoStepChangesTheConfiguration : ∃ t, step (serving 4 .reset) = .next t := ⟨_, rfl⟩

theorem witness_StreamsOnlyGrow : ∃ t, step (running 2 [0x03#8]) = .next t := ⟨_, rfl⟩

theorem witness_EveryCommandCompletesWithOneStatus : (serving 4 .reset).Inv ∧ ∃ t, step (serving 4 .reset) = .next t :=
  ⟨by simp only [inv_iff]; decide, _, rfl⟩

theorem witness_ErrorsInARunArePrecise : (running 2 [0x06#8, 0x02#8]).Inv ∧
    (running 2 [0x06#8, 0x02#8]).runState = .running ∧ ∃ t, step (running 2 [0x06#8, 0x02#8]) = .next t ∧
      t.replies = (running 2 [0x06#8, 0x02#8]).replies ++ [⟨.failed .invalidRegister, .nothing⟩] :=
  ⟨by simp only [inv_iff]; decide, rfl, _, rfl, rfl⟩

theorem witness_IoErrorComesFromSaveAndLoadOnly :
    Serving (serving 4 (.save (some 3))) (.save (some 3)) [] ∧ 3 < (serving 4 (.save (some 3))).cfg.cap ∧
    Serving (serving 1 (.load [])) (.load []) [] ∧ ([] : List Byte).length < (serving 1 (.load [])).cfg.cap ∧
    ∃ t, step (serving 1 (.load [])) = .next t ∧
      t.replies = (serving 1 (.load [])).replies ++ [⟨.failed .ioError, .nothing⟩] := by
  refine ⟨?_, by decide, ?_, by decide, _, rfl, rfl⟩ <;> simp only [Serving, inv_iff] <;> decide

theorem witness_EveryRunEndsWithinCapacity : (running 4 [] 0#16 0#16 4#16).Inv ∧
    (running 4 [] 0#16 0#16 4#16).runState = .running := by
  simp only [inv_iff]; decide

theorem witness_TracerChangesNothingButTrace :
    ∃ t, step { running 2 [0x06#8] with cfg := ⟨2, true, ", "⟩ } = .next t ∧ t.trace ≠ [] :=
  ⟨_, rfl, by decide⟩

theorem witness_StoreIsSeenByTheNextFetch : (running 8 [] 0#16 0x0806#16 6#16).Inv ∧
    (6#16).toNat = (running 8 [] 0#16 0x0806#16 6#16).ip.toNat ∧ (6#16).toNat + 2 ≤ 8 ∧
    ∃ t, exec (.movToRam 6#16 (codeOf .B)) (running 8 [] 0#16 0x0806#16 6#16) = .next t :=
  ⟨by simp only [inv_iff]; decide, rfl, by decide, _, rfl⟩

theorem witness_IdleCoreWaitsForTheHost : State.reset.cfg.WF ∧ State.reset.runState = .idle ∧ State.reset.commands = [] := by
  decide

theorem witness_RunStartsAtAddressZero : Serving (serving 4 .run [] 1#16 2#16 4#16) .run [] := by
  simp only [Serving, inv_iff]; decide

theorem witness_ResetCommandReinitialisesTheCore : Serving (serving 4 .reset [0x01#8] 1#16 2#16 4#16) .reset [] := by
  simp only [Serving, inv_iff]; decide

theorem witness_SaveSendsTheCellsAndChangesNothing :
    Serving (serving 4 (.save (some 4)) [0x01#8]) (.save (some 4)) [] ∧ (∀ k, some 4 = some k → 4 ≤ k) ∧
    Serving (serving 4 (.save none) [0x01#8]) (.save none) [] ∧ (∀ k, none = some k → 4 ≤ k) ∧
    Serving (serving 4 (.save (some 3)) [0x01#8]) (.save (some 3)) [] ∧ 3 < 4 ∧
    Serving (serving 4 (.save (some 0)) [0x01#8]) (.save (some 0)) [] := by
  refine ⟨?_, fun k h => by cases h; decide, ?_, (fun k h => nomatch h), ?_, by decide, ?_⟩ <;>
    simp only [Serving, inv_iff] <;> decide

theorem witness_LoadResetsAndReadsTheSource :
    Serving (serving 2 (.load [0x01#8, 0x02#8])) (.load [0x01#8, 0x02#8]) [] ∧ 2 ≤ [0x01#8, 0x02#8].length ∧
    Serving (serving 2 (.load [0x01#8])) (.load [0x01#8]) [] ∧ [0x01#8].length < 2 := by
  simp only [Serving, inv_iff]; decide

theorem witness_SaveThenLoadRestoresMemory :
    Serving (serving 2 (.save none) [0x01#8] 7#16) (.save none) [] ∧
    (∃ t, step (serving 2 (.save none) [0x01#8] 7#16) = .next t ∧
      t.replies = (serving 2 (.save none) [0x01#8] 7#16).replies ++ [⟨.ok, .bytes [0x01#8, 0x00#8]⟩]) ∧
    Serving (serving 2 (.load [0x01#8, 0x00#8]) [0xFF#8] 8#16) (.load [0x01#8, 0x00#8]) [] ∧
    ∃ t', step (serving 2 (.load [0x01#8, 0x00#8]) [0xFF#8] 8#16) = .next t' := by
  refine ⟨?_, ⟨_, rfl, rfl⟩, ?_, _, rfl⟩ <;> simp only [Serving, inv_iff] <;> decide

theorem witness_EncoderWritesTheBytesOfEachRule :
    (Serving (serving 4 (.writeMovToRam 0x1234#16 0x01#8)) (.writeMovToRam 0x1234#16 0x01#8) [] ∧
      encoderRow (.writeMovToRam 0x1234#16 0x01#8) = some ([0x01#8], [0x01#8, 0x34#8, 0x12#8, 0x01#8]) ∧
      AllValid [0x01#8] ∧ 0 + 4 ≤ 4) ∧
    (Serving (serving 4 (.writeInc 0x02#8)) (.writeInc 0x02#8) [] ∧ ¬ AllValid [0x02#8]) ∧
    (Serving (serving 3 (.writeMovToReg 0x00#8 5#16)) (.writeMovToReg 0x00#8 5#16) [] ∧ AllValid [0x00#8] ∧ 3 < 0 + 4) ∧
    (Serving (serving 4 .writeRet [] 0#16 0#16 4#16) .writeRet [] ∧ encoderRow .writeRet = some ([], [0x08#8]) ∧
      AllValid [] ∧ 4 < 4 + 1) := by
  repeat' apply And.intro
  all_goals first | decide | (simp only [inv_iff]; decide) | (simp only [AllValid]; decide)

theorem witness_FailedEncoderWriteChangesNothing :
    (Serving (serving 4 (.writeAdd 0x00#8 0x07#8) [] 0#16 0#16 3#16) (.writeAdd 0x00#8 0x07#8) [] ∧
      encoderRow (.writeAdd 0x00#8 0x07#8) = some ([0x00#8, 0x07#8], [0x04#8, 0x07#8]) ∧ ¬ AllValid [0x00#8, 0x07#8] ∧
      4 < 3 + 2) ∧
    (Serving (serving 4 (.writeAdd 0x00#8 0x01#8) [] 0#16 0#16 3#16) (.writeAdd 0x00#8 0x01#8) [] ∧
      AllValid [0x00#8, 0x01#8]) := by
  simp only [Serving, inv_iff, AllValid]; decide

theorem witness_EncoderWriteIsDecodedBack :
    Serving (serving 2 (.writeAdd (codeOf .B) (codeOf .A))) (.writeAdd (codeOf .B) (codeOf .A)) [] ∧
    ∃ t, step (serving 2 (.writeAdd (codeOf .B) (codeOf .A))) = .next t ∧
      t.replies = (serving 2 (.writeAdd (codeOf .B) (codeOf .A))).replies ++ [⟨.ok, .nothing⟩] := by
  refine ⟨?_, _, rfl, rfl⟩
  simp only [Serving, inv_iff]; decide

theorem witness_RegisterPortActsOnOneRegister : Serving (serving 4 (.get (codeOf .A))) (.get (codeOf .A)) [] ∧
    Serving (serving 4 (.set (codeOf .B) 65535#16)) (.set (codeOf .B) 65535#16) [] ∧
    Serving (serving 4 (.increment (codeOf .A)) [] 65535#16) (.increment (codeOf .A)) [] ∧
    Serving (serving 4 (.decrement (codeOf .B))) (.decrement (codeOf .B)) [] ∧
    Serving (serving 4 (.name (codeOf .B))) (.name (codeOf .B)) [] := by
  simp only [Serving, inv_iff]; decide

theorem witness_MemoryPortActsOnTheCells :
    (Serving (serving 4 (.readByte 3)) (.readByte 3) [] ∧ 3 < 4) ∧ (Serving (serving 4 (.readByte 4)) (.readByte 4) [] ∧ 4 ≤ 4) ∧
    (Serving (serving 4 (.readWord 2)) (.readWord 2) [] ∧ 2 + 2 ≤ 4) ∧
    (Serving (serving 4 (.readWord 3)) (.readWord 3) [] ∧ 4 < 3 + 2) ∧
    (Serving (serving 4 (.writeByte 3 0x01#8)) (.writeByte 3 0x01#8) [] ∧
      Serving (serving 4 (.writeByte 4 0x01#8)) (.writeByte 4 0x01#8) []) ∧
    (Serving (serving 4 (.writeWord 2 1#16)) (.writeWord 2 1#16) [] ∧
      Serving (serving 4 (.writeWord 3 1#16)) (.writeWord 3 1#16) []) := by
  repeat' apply And.intro
  all_goals first | decide | (simp only [inv_iff]; decide)

end Sys2Proof.Tests
end

section
/-! Proofs of the family 20_memory.md: the byte and word primitives (R52 to R55), `clear` and `asBytes` (R66, R67). -/

namespace Sys2Proof.Machine

/-! ## Byte order in numbers (20_memory.md R54, R55) -/

@[simp] theorem toNat_joinBytes (lo hi : Byte) : (joinBytes lo hi).toNat = lo.toNat + 256 * hi.toNat := by
  have hlo : lo.toNat < 2 ^ 8 := lo.isLt
  rw [joinBytes, BitVec.toNat_append, ← Nat.shiftLeft_add_eq_or_of_lt hlo, Nat.shiftLeft_eq]
  omega

@[simp] theorem toNat_loByte (w : Word) : (loByte w).toNat = w.toNat % 256 := by
  simp [loByte, BitVec.extractLsb'_toNat]

@[simp] theorem toNat_hiByte (w : Word) : (hiByte w).toNat = w.toNat / 256 := by
  have hw : w.toNat < 2 ^ 16 := w.isLt
  rw [hiByte, BitVec.extractLsb'_toNat, Nat.shiftRight_eq_div_pow]
  omega

/-! ## What the primitives answer, completing `Memory.readByte_eq_ok` and its neighbours -/

theorem Memory.readByte_eq_error {cap : Nat} {m : Memory} {a : Nat} {e : ErrorKind} :
    Memory.readByte cap m a = .error e ↔ cap < a + 1 ∧ e = .outOfBounds := by
  unfold Memory.readByte
  split <;> simp [eq_comm] <;> omega

/-! ## The cells of a written word (20_memory.md R55) -/

theorem Memory.get_putWord_low {m : Memory} (h : Memory.wf m) (a : Nat) (v : Word) :
    Memory.get (Memory.putBytes m a [loByte v, hiByte v]) a = loByte v :=
  Memory.get_putBytes h a (k := 0) (by simp)

theorem Memory.get_putWord_high {m : Memory} (h : Memory.wf m) (a : Nat) (v : Word) :
    Memory.get (Memory.putBytes m a [loByte v, hiByte v]) (a + 1) = hiByte v :=
  Memory.get_putBytes h a (k := 1) (by simp)

theorem Memory.get_putWord_ne (m : Memory) {a b : Nat} (v : Word) (hlo : b ≠ a) (hhi : b ≠ a + 1) :
    Memory.get (Memory.putBytes m a [loByte v, hiByte v]) b = Memory.get m b :=
  Memory.get_putBytes_ne m _ (by simp only [List.length_cons, List.length_nil]; omega)

/-! ## The whole array (20_memory.md R66, R67) -/

@[simp] theorem Memory.get_clear (a : Nat) : Memory.get Memory.clear a = Memory.blank := rfl

@[simp] theorem Memory.length_asBytes (cap : Nat) (m : Memory) : (Memory.asBytes cap m).length = cap := by
  simp [Memory.asBytes]

theorem Memory.getElem?_asBytes {cap a : Nat} (m : Memory) (h : a < cap) :
    (Memory.asBytes cap m)[a]? = some (Memory.get m a) := by
  rw [Memory.asBytes, List.getElem?_map, List.getElem?_range h, Option.map_some]

end Sys2Proof.Machine

namespace Sys2Proof.Proofs
open Sys2Proof.Machine

/-- Settles O9: by the little-endian cells of a written word, read back as numbers. -/
theorem wordAccessPrimitives : Obligations.WordAccessPrimitives := by
  intro cap m addr v hm
  refine ⟨fun hout => ?_, fun hin => ⟨?_, ?_⟩⟩
  · exact ⟨Memory.readWord_eq_error.2 ⟨hout, rfl⟩, Memory.writeWord_eq_error.2 ⟨hout, rfl⟩⟩
  · exact ⟨_, Memory.readWord_eq_ok.2 ⟨hin, rfl⟩, toNat_joinBytes _ _⟩
  · refine ⟨_, Memory.writeWord_eq_ok.2 ⟨hin, rfl⟩, ?_, ?_, fun a hlo hhi => Memory.get_putWord_ne m v hlo hhi⟩
    · rw [Memory.get_putWord_low hm, toNat_loByte]
    · rw [Memory.get_putWord_high hm, toNat_hiByte]

/-- Settles O8: by what one cell reads as after a write to it and to another cell. -/
theorem byteAccessPrimitives : Obligations.ByteAccessPrimitives := by
  intro cap m addr v hm
  refine ⟨fun hout => ?_, fun hin => ⟨?_, ?_⟩⟩
  · have hlt : cap < addr + 1 := Nat.lt_succ_of_le hout
    exact ⟨Memory.readByte_eq_error.2 ⟨hlt, rfl⟩, Memory.writeByte_eq_error.2 ⟨hlt, rfl⟩⟩
  · exact Memory.readByte_eq_ok.2 ⟨hin, rfl⟩
  · exact ⟨_, Memory.writeByte_eq_ok.2 ⟨hin, rfl⟩, Memory.get_put_self hm addr v,
      fun a ha => Memory.get_put_ne m v ha.symm⟩

/-- Settles O12: a cleared memory lists no cell, and `asBytes` reads the cells of the range `[0, CAP)` in order. -/
theorem clearAndAsBytesActOnTheWholeArray : Obligations.ClearAndAsBytesActOnTheWholeArray :=
  ⟨Memory.get_clear, fun cap m => ⟨Memory.length_asBytes cap m, fun _ ha => Memory.getElem?_asBytes m ha⟩⟩

end Sys2Proof.Proofs
end

section
/-! Proofs of the family 30_encoding.md: the opcode table (R83), the register-pair byte (R85), unknown opcodes (R87 and
60_exceptions.md R203). -/

namespace Sys2Proof.Machine

/-! ## The decoder, row by row (30_encoding.md R82, R83) -/

@[simp] theorem decode_movToReg (r lo hi : Byte) (rest : List Byte) :
    decode (0x00#8 :: r :: lo :: hi :: rest) = .instr (.movToReg r (joinBytes lo hi)) rest := rfl

@[simp] theorem decode_movToRam (lo hi r : Byte) (rest : List Byte) :
    decode (0x01#8 :: lo :: hi :: r :: rest) = .instr (.movToRam (joinBytes lo hi) r) rest := rfl

@[simp] theorem decode_movFromRam (r lo hi : Byte) (rest : List Byte) :
    decode (0x02#8 :: r :: lo :: hi :: rest) = .instr (.movFromRam r (joinBytes lo hi)) rest := rfl

@[simp] theorem decode_dumpreg (rest : List Byte) : decode (0x03#8 :: rest) = .instr .dumpreg rest := rfl

@[simp] theorem decode_add (p : Byte) (rest : List Byte) :
    decode (0x04#8 :: p :: rest) = .instr (.add (highNibble p) (lowNibble p)) rest := rfl

@[simp] theorem decode_sub (p : Byte) (rest : List Byte) :
    decode (0x05#8 :: p :: rest) = .instr (.sub (highNibble p) (lowNibble p)) rest := rfl

@[simp] theorem decode_inc (r : Byte) (rest : List Byte) : decode (0x06#8 :: r :: rest) = .instr (.inc r) rest := rfl

@[simp] theorem decode_dec (r : Byte) (rest : List Byte) : decode (0x07#8 :: r :: rest) = .instr (.dec r) rest := rfl

@[simp] theorem decode_ret (rest : List Byte) : decode (0x08#8 :: rest) = .instr .ret rest := rfl

/-! ## Where a decode attempt finds an unknown opcode (30_encoding.md R87) -/

/-- A fetch that fails stops for a missing byte, so an unknown opcode is found by what follows the fetch. -/
theorem Decoded.fetch_eq_unknownOpcode {σ α : Type} {get : σ → Option (α × σ)} {next : α → σ → Decoded σ} {s t : σ} :
    Decoded.fetch get s next = .stop .unknownOpcode t ↔
      ∃ v u, get s = some (v, u) ∧ next v u = .stop .unknownOpcode t := by
  unfold Decoded.fetch
  cases h : get s with
  | none => simp
  | some p => obtain ⟨v, u⟩ := p; simp

/-- Over any source of bytes: the stop is at the opcode byte, at no operand, and exactly for the bytes from 9 up. -/
theorem decodeWith_eq_unknownOpcode {σ : Type} {fetchByte : σ → Option (Byte × σ)} {fetchWord : σ → Option (Word × σ)}
    {s t : σ} : decodeWith fetchByte fetchWord s = .stop .unknownOpcode t ↔
      ∃ op, fetchByte s = some (op, t) ∧ 9 ≤ op.toNat := by
  rw [decodeWith, Decoded.fetch_eq_unknownOpcode]
  constructor
  · rintro ⟨op, u, hop, hnext⟩
    split at hnext
    case h_10 =>
      cases hnext
      simp only [imp_false] at *
      exact ⟨op, hop, by omega⟩
    all_goals simp [Decoded.fetch_eq_unknownOpcode] at hnext
  · rintro ⟨op, hop, hge⟩
    refine ⟨op, t, hop, ?_⟩
    split
    case h_10 => rfl
    all_goals omega

theorem decode_unknownOpcode {op : Byte} (h : 9 ≤ op.toNat) (rest : List Byte) :
    decode (op :: rest) = .stop .unknownOpcode rest :=
  decodeWith_eq_unknownOpcode.2 ⟨op, rfl, h⟩

theorem fetchInstr_eq_unknownOpcode {s t : State} :
    s.fetchInstr = .stop .unknownOpcode t ↔
      s.ip.toNat < s.cfg.cap ∧ 9 ≤ (s.byteAt s.ip.toNat).toNat ∧ t = { s with ip := s.ip + 1#16 } := by
  rw [State.fetchInstr, decodeWith_eq_unknownOpcode]
  constructor
  · rintro ⟨op, hop, hge⟩
    obtain ⟨hin, rfl, rfl⟩ := fetchByte_eq_some.1 hop
    exact ⟨hin, hge, rfl⟩
  · rintro ⟨hin, hge, rfl⟩
    exact ⟨_, fetchByte_eq_some.2 ⟨hin, rfl, rfl⟩, hge⟩

/-! ## Who replies UnknownOpcode (60_exceptions.md R203) -/

theorem runInstr_of_stop {s u : State} {e : DecodeError} (h : s.fetchInstr = .stop e u) :
    s.runInstr = .next (u.abort (decodeErrorKind e)) := by
  rw [State.runInstr, h]

/-- No handler does: it aborts with another error, halts with OK, or sends no reply. -/
theorem ExecCase.replies_ne_unknownOpcode {i : Instr} {s t : State} (h : ExecCase i s t) (v : Value) :
    t.replies ≠ s.replies ++ [⟨.failed .unknownOpcode, v⟩] := by
  cases h with
  | aborted e he => rcases he with rfl | rfl <;> simp
  | wroteReg r w => simp
  | stored addr w m hm => simp
  | dumped hi => simp
  | halted hi => simp

/-- No command but `run` does, and `run` sends its reply when the run ends. -/
theorem PerformCase.replies_ne_unknownOpcode {s t : State} {c : Command} (h : PerformCase s c t) (v : Value) :
    t.replies ≠ s.replies ++ [⟨.failed .unknownOpcode, v⟩] := by
  cases h with
  | started hc => simp
  | reset hc => simp
  | kept st w hst => rcases hst with rfl | rfl | rfl | ⟨rfl, -⟩ <;> simp
  | loaded source hc f n st hst => rcases hst with rfl | ⟨rfl, -⟩ <;> simp
  | encoded i hi => simp
  | wroteReg x w => simp
  | wroteByte m a w hm => simp
  | wroteWord m a w hm => simp

theorem serveHost_replies_ne_unknownOpcode (s : State) (v : Value) :
    s.serveHost.replies ≠ s.replies ++ [⟨.failed .unknownOpcode, v⟩] := by
  rcases serveHost_cases s with ⟨-, hwait⟩ | ⟨c, rest, -, hperform⟩
  · rw [hwait]; simp
  · rw [hperform]
    exact (perform_cases { s with commands := rest } c).replies_ne_unknownOpcode v

theorem fetchInstr_source_replies (s : State) : s.fetchInstr.source.replies = s.replies := by
  obtain ⟨ip, h⟩ := fetchInstr_moves_ip_only s
  rw [h]

/-- A step that replies UnknownOpcode is a step of a run whose decode attempt stopped at an unknown opcode. -/
theorem StepCase.unknownOpcode_of_replies {s t : State} {v : Value} (h : StepCase s t)
    (hr : t.replies = s.replies ++ [⟨.failed .unknownOpcode, v⟩]) :
    s.runState = .running ∧ ∃ u, s.fetchInstr = .stop .unknownOpcode u := by
  have hsource := fetchInstr_source_replies s
  cases h with
  | served hrun => exact absurd hr (serveHost_replies_ne_unknownOpcode s v)
  | executed hrun i u _ hf he =>
    rw [hf] at hsource
    exact absurd (hsource ▸ hr) ((exec_inv he).replies_ne_unknownOpcode v)
  | stopped hrun e u hf =>
    cases e with
    | unknownOpcode => exact ⟨hrun, u, hf⟩
    | missingByte =>
      rw [hf] at hsource
      simp [decodeErrorKind, show u.replies = s.replies from hsource] at hr
  | leftHalted hrun => simp at hr

/-! ## Nibbles and register codes in numbers (30_encoding.md R84, R85) -/

@[simp] theorem toNat_highNibble (p : Byte) : (highNibble p).toNat = p.toNat / 16 := by
  have hp : p.toNat < 2 ^ 8 := p.isLt
  rw [highNibble, BitVec.extractLsb'_toNat, Nat.shiftRight_eq_div_pow]
  omega

@[simp] theorem toNat_lowNibble (p : Byte) : (lowNibble p).toNat = p.toNat % 16 := by
  simp [lowNibble, BitVec.extractLsb'_toNat]

@[simp] theorem toNat_joinNibbles (d s : BitVec 4) : (joinNibbles d s).toNat = 16 * d.toNat + s.toNat := by
  have hs : s.toNat < 2 ^ 4 := s.isLt
  rw [joinNibbles, BitVec.toNat_append, ← Nat.shiftLeft_add_eq_or_of_lt hs, Nat.shiftLeft_eq]
  omega

@[simp] theorem toNat_nibbleCode (n : BitVec 4) : (nibbleCode n).toNat = n.toNat := by
  have hn : n.toNat < 2 ^ 4 := n.isLt
  rw [nibbleCode, BitVec.toNat_setWidth]
  omega

theorem regCheck_toNat (c : Byte) :
    regCheck c = if c.toNat = 0 then .ok .A else if c.toNat = 1 then .ok .B else .error .invalidRegister := by
  simp only [regCheck, ← BitVec.toNat_inj, BitVec.toNat_ofNat, Nat.zero_mod, Nat.reducePow, Nat.reduceMod]

theorem validNibble_iff {n : BitVec 4} : validNibble n = true ↔ n = 0x0#4 ∨ n = 0x1#4 := by
  simp [validNibble]

/-- The four valid register-pair bytes: each nibble is 0 or 1. -/
theorem validPair_iff (p : Byte) : (validNibble (highNibble p) && validNibble (lowNibble p)) = true ↔
    p = 0x00#8 ∨ p = 0x01#8 ∨ p = 0x10#8 ∨ p = 0x11#8 := by
  constructor
  · intro h
    obtain ⟨hhigh, hlow⟩ := Bool.and_eq_true_iff.1 h
    rw [← joinNibbles_high_low p]
    rcases validNibble_iff.1 hhigh with hd | hd <;> rcases validNibble_iff.1 hlow with hs | hs <;>
      rw [hd, hs] <;> decide
  · rintro (rfl | rfl | rfl | rfl) <;> decide

end Sys2Proof.Machine

namespace Sys2Proof.Proofs
open Sys2Proof.Machine Sys2Proof.Claims

/-- Settles O16: by what a fetch finds at an unknown opcode, and, for the converse, by the cases of a step, of which
only a stopped decode attempt replies UnknownOpcode. -/
theorem unknownOpcodeAbortsAndNothingElseRaisesIt : Obligations.UnknownOpcodeAbortsAndNothingElseRaisesIt := by
  refine ⟨fun s op hat hge => ?_, fun s t v _ hstep hreplies => ?_⟩
  · obtain ⟨hinv, hrun, hin, rfl⟩ := hat
    have hfetch := fetchInstr_eq_unknownOpcode.2 ⟨hin, hge, rfl⟩
    have hstep := (step_running hinv.cap hrun).trans (runInstr_of_stop hfetch)
    exact ⟨_, hstep, ip_succ hinv.cap hin, rfl⟩
  · obtain ⟨-, hcase⟩ := step_inv hstep
    obtain ⟨hrun, u, hfetch⟩ := hcase.unknownOpcode_of_replies hreplies
    obtain ⟨hin, hge, -⟩ := fetchInstr_eq_unknownOpcode.1 hfetch
    exact ⟨hrun, hin, hge⟩

/-- Settles O5: by the decoder's nine rows and its answer to every other opcode byte. -/
theorem opcodeByteSelectsInstruction : Obligations.OpcodeByteSelectsInstruction := by
  refine ⟨fun x y z rest => ?_, fun op rest h => decode_unknownOpcode h rest, rfl, fun r w d s => rfl⟩
  exact ⟨decode_movToReg x y z rest, decode_movToRam x y z rest, decode_movFromRam x y z rest, decode_dumpreg rest,
    decode_add x rest, decode_sub x rest, decode_inc x rest, decode_dec x rest, decode_ret rest⟩

/-- Settles O6: by the nibbles of a pair byte as numbers, the four pairs of valid nibbles, and a nibble's register code. -/
theorem registerPairFieldIsTwoNibbles : Obligations.RegisterPairFieldIsTwoNibbles := by
  refine ⟨fun p rest => ?_, fun n => ?_, fun d s => ?_⟩
  · exact ⟨highNibble p, lowNibble p, toNat_highNibble p, toNat_lowNibble p, decode_add p rest, decode_sub p rest,
      validPair_iff p, validPair_iff p⟩
  · rw [regCheck_toNat, toNat_nibbleCode]
  · exact ⟨joinNibbles d s, toNat_joinNibbles d s, rfl, rfl⟩

end Sys2Proof.Proofs
end

section
/-! Proofs of the family 40_fde_loop.md: IP after an instruction that completes (R114). -/

namespace Sys2Proof.Machine

/-! ## What a decode attempt that finds an instruction consumed (30_encoding.md R80, R82) -/

theorem Decoded.fetch_eq_instr {σ α : Type} {get : σ → Option (α × σ)} {next : α → σ → Decoded σ} {s t : σ} {i : Instr} :
    Decoded.fetch get s next = .instr i t ↔ ∃ v u, get s = some (v, u) ∧ next v u = .instr i t := by
  unfold Decoded.fetch
  cases h : get s with
  | none => simp
  | some p => obtain ⟨v, u⟩ := p; simp

section
variable {bytes rest : List Byte} {i : Instr}

theorem fetch_takeByte_eq_instr {next : Byte → List Byte → Decoded (List Byte)}
    (h : Decoded.fetch takeByte bytes next = .instr i rest) :
    ∃ v left, bytes = v :: left ∧ next v left = .instr i rest := by
  obtain ⟨v, left, htake, hnext⟩ := Decoded.fetch_eq_instr.1 h
  cases bytes with
  | nil => cases htake
  | cons b bs => cases htake; exact ⟨_, _, rfl, hnext⟩

theorem fetch_takeWord_eq_instr {next : Word → List Byte → Decoded (List Byte)}
    (h : Decoded.fetch takeWord bytes next = .instr i rest) :
    ∃ w left, bytes = loByte w :: hiByte w :: left ∧ next w left = .instr i rest := by
  obtain ⟨w, left, htake, hnext⟩ := Decoded.fetch_eq_instr.1 h
  match bytes with
  | [] | [_] => cases htake
  | lo :: hi :: bs => cases htake; exact ⟨_, _, by simp, hnext⟩

/-- The bytes consumed are the instruction's encoding, row by row of the decoder. -/
theorem decode_eq_instr (h : decode bytes = .instr i rest) : bytes = encode i ++ rest := by
  obtain ⟨op, operands, rfl, hrow⟩ := fetch_takeByte_eq_instr h
  split at hrow <;> rename_i hop
  case h_10 => cases hrow
  all_goals obtain ⟨-, rfl⟩ := BitVec.toNat_eq_nat.1 hop
  case h_1 | h_3 => -- MovToReg, MovFromRam: a register code, then a word
    obtain ⟨r, left, rfl, hword⟩ := fetch_takeByte_eq_instr hrow
    obtain ⟨w, left, rfl, hend⟩ := fetch_takeWord_eq_instr hword
    cases hend; rfl
  case h_2 => -- MovToRam: a word, then a register code
    obtain ⟨addr, left, rfl, hbyte⟩ := fetch_takeWord_eq_instr hrow
    obtain ⟨r, left, rfl, hend⟩ := fetch_takeByte_eq_instr hbyte
    cases hend; rfl
  case h_4 | h_9 => cases hrow; rfl -- Dumpreg, Ret: the opcode alone
  case h_5 | h_6 => -- Add, Sub: a register pair
    obtain ⟨p, left, rfl, hend⟩ := fetch_takeByte_eq_instr hrow
    cases hend; rw [encode, joinNibbles_high_low]; rfl
  case h_7 | h_8 => -- Inc, Dec: a register code
    obtain ⟨r, left, rfl, hend⟩ := fetch_takeByte_eq_instr hrow
    cases hend; rfl

end

/-! ## IP across fetch and execution (40_fde_loop.md R111 to R114) -/

/-- Where the bytes at IP decode to an instruction, the machine fetches it and IP moves past its bytes. -/
theorem fetchInstr_of_decode {s : State} {i : Instr} {rest : List Byte} (hc : s.cfg.WF) (hip : s.ip.toNat ≤ s.cfg.cap)
    (h : decode s.bytesAtIp = .instr i rest) :
    ∃ u, s.fetchInstr = .instr i u ∧ u.ip.toNat = s.ip.toNat + (encode i).length := by
  have hlength := congrArg List.length (decode_eq_instr h)
  obtain ⟨ip, hsource, -, hcap⟩ := fetchInstr_source hc hip
  rw [decode_bytesAtIp s hc] at h
  cases hf : s.fetchInstr with
  | stop e u => rw [hf] at h; cases h
  | instr j u =>
    rw [hf] at h hsource
    obtain rfl : u = { s with ip := ip } := hsource
    cases h
    rw [List.length_append, bytesAtIp_length, bytesAtIp_length] at hlength
    exact ⟨_, rfl, by simp only at hlength ⊢; omega⟩

theorem runInstr_of_instr {s u : State} {i : Instr} (h : s.fetchInstr = .instr i u) : s.runInstr = exec i u := by
  rw [State.runInstr, h]

/-- No handler that lets the run go on moves IP. -/
theorem ExecCase.ip_of_running {i : Instr} {s t : State} (h : ExecCase i s t) (hrun : t.runState = .running) :
    t.ip = s.ip := by
  cases h with
  | aborted e he => cases hrun
  | wroteReg r v => rfl
  | stored addr v m hm => rfl
  | dumped hi => rfl
  | halted hi => cases hrun

theorem exec_ret (s : State) : exec .ret s = .next (s.retire .ret).halt := rfl

end Sys2Proof.Machine

namespace Sys2Proof.Proofs
open Sys2Proof.Machine

/-- Settles O17: the fetch moves IP past the instruction's bytes, and of the handlers that complete only Ret's moves it. -/
theorem ipPointsPastTheInstruction : Obligations.IpPointsPastTheInstruction := by
  intro s t i rest hinv hrun hdecode hstep hcompletes
  obtain ⟨u, hfetch, hip⟩ := fetchInstr_of_decode hinv.cap hinv.ip hdecode
  rw [step_running hinv.cap hrun, runInstr_of_instr hfetch] at hstep
  by_cases hret : i = .ret
  · subst hret
    rw [exec_ret] at hstep
    cases hstep
    rw [if_pos rfl, State.halt_ip, BitVec.toNat_zero]
  · rw [if_neg hret, ← hip, (exec_inv hstep).ip_of_running (hcompletes.resolve_left hret)]

end Sys2Proof.Proofs
end

section
/-! Proofs of the family 43_system.md: Ret ends the run (R151). -/

namespace Sys2Proof.Machine
open Sys2Proof.Claims

/-- The bytes of memory are read from the field `mem` alone. -/
theorem sameMemory_of_mem_eq {s t : State} (h : t.mem = s.mem) : SameMemory s t := fun _ => by
  rw [State.byteAt, State.byteAt, h]

/-- What retirement does to TRACE, in the statements' vocabulary (40_fde_loop.md R119). -/
theorem State.retire_trace_eq_traced (s : State) (i : Instr) : (s.retire i).trace = traced s i := rfl

end Sys2Proof.Machine

namespace Sys2Proof.Proofs
open Sys2Proof.Machine

/-- Settles O28: Ret retires, which touches only TRACE and ICOUNT, and the halt then sets IP and RUNSTATE and replies OK. -/
theorem retHaltsTheRun : Obligations.RetHaltsTheRun := by
  refine ⟨rfl, fun s => ⟨(s.retire .ret).halt, exec_ret s, State.halt_runState _, State.halt_ip _, ?replies, ?a, ?b,
    sameMemory_of_mem_eq ?mem, ?out, ?trace, ?cfg, ?commands⟩⟩
  case replies => rw [State.halt_replies, State.retire_replies]
  case trace => rw [State.halt_trace, State.retire_trace_eq_traced]
  -- neither retirement nor the halt touches the other fields
  case a | b | mem | out | cfg | commands => simp

end Sys2Proof.Proofs
end

section
/-! Proofs of the family 44_encoder.md: the nine encoder writes (R165 to R173). -/

namespace Sys2Proof.Machine
open Sys2Proof.Claims

/-! ## The encoder's bytes in numbers (30_encoding.md R85, R86) -/

theorem loByte_eq_ofNat (w : Word) : loByte w = BitVec.ofNat 8 (w.toNat % 256) :=
  BitVec.eq_of_toNat_eq (by simp)

theorem hiByte_eq_ofNat (w : Word) : hiByte w = BitVec.ofNat 8 (w.toNat / 256) := by
  have hw : w.toNat < 2 ^ 16 := w.isLt
  refine BitVec.eq_of_toNat_eq ?_
  rw [toNat_hiByte, BitVec.toNat_ofNat]
  omega

/-- A valid code fits its nibble of a register pair. -/
theorem joinNibbles_lowNibble_of_allValid {d src : Byte} (h : AllValid [d, src]) :
    joinNibbles (lowNibble d) (lowNibble src) = BitVec.ofNat 8 (16 * d.toNat + src.toNat) := by
  have hd : d.toNat < 2 := h d (by simp)
  have hsrc : src.toNat < 2 := h src (by simp)
  refine BitVec.eq_of_toNat_eq ?_
  rw [toNat_joinNibbles, toNat_lowNibble, toNat_lowNibble, BitVec.toNat_ofNat]
  omega

theorem validCode_iff {c : Byte} : validCode c = true ↔ c.toNat < 2 := by
  revert c; decide

theorem all_validCode_iff {codes : List Byte} : codes.all validCode = true ↔ AllValid codes := by
  simp only [List.all_eq_true, validCode_iff, AllValid]

/-! ## The encoder write, branch by branch (44_encoder.md R160 to R162) -/

section
variable {s : State} {codes : List Byte} {i : Instr}

theorem encoderWrite_of_room (hvalid : AllValid codes) (hroom : s.ip.toNat + i.length ≤ s.cfg.cap) :
    s.encoderWrite codes i = { s with
      mem := Memory.putBytes s.mem s.ip.toNat (encode i)
      ip := s.ip + BitVec.ofNat 16 i.length }.reply .ok .nothing := by
  rw [State.encoderWrite, if_pos (all_validCode_iff.2 hvalid), if_pos hroom]

theorem encoderWrite_of_no_room (hvalid : AllValid codes) (hfull : s.cfg.cap < s.ip.toNat + i.length) :
    s.encoderWrite codes i = s.reply (.failed .outOfBounds) .nothing := by
  rw [State.encoderWrite, if_pos (all_validCode_iff.2 hvalid), if_neg (Nat.not_le.2 hfull)]

/-- The register codes are validated first, whatever room is left (decision D9). -/
theorem encoderWrite_of_invalid (hinvalid : ¬ AllValid codes) :
    s.encoderWrite codes i = s.reply (.failed .invalidRegister) .nothing := by
  rw [State.encoderWrite, if_neg (mt all_validCode_iff.1 hinvalid)]

end

/-- A cursor that advances inside memory does not wrap. -/
theorem ip_add {s : State} {n : Nat} (hc : s.cfg.WF) (h : s.ip.toNat + n ≤ s.cfg.cap) :
    (s.ip + BitVec.ofNat 16 n).toNat = s.ip.toNat + n := by
  obtain ⟨-, hcap⟩ := hc
  rw [BitVec.toNat_add, BitVec.toNat_ofNat]
  omega

/-! ## The nine commands (44_encoder.md R165 to R173) -/

/-- A command with an encoder row is the encoder write of one instruction. Invalid codes, which an encoder write refuses,
fix only the length of the row's bytes: a pair byte keeps the low half of each code. -/
theorem exists_encoderWrite_of_encoderRow {c : Command} {codes bytes : List Byte}
    (h : encoderRow c = some (codes, bytes)) :
    ∃ i : Instr, (∀ s : State, s.perform c = s.encoderWrite codes i) ∧ i.length = bytes.length ∧
      (AllValid codes → encode i = bytes) := by
  cases c <;> cases h
  case writeMovToReg r imm =>
    exact ⟨.movToReg r imm, fun _ => rfl, rfl, fun _ => by rw [encode, loByte_eq_ofNat, hiByte_eq_ofNat]⟩
  case writeMovToRam addr r =>
    exact ⟨.movToRam addr r, fun _ => rfl, rfl, fun _ => by rw [encode, loByte_eq_ofNat, hiByte_eq_ofNat]⟩
  case writeMovFromRam r addr =>
    exact ⟨.movFromRam r addr, fun _ => rfl, rfl, fun _ => by rw [encode, loByte_eq_ofNat, hiByte_eq_ofNat]⟩
  case writeDumpreg => exact ⟨.dumpreg, fun _ => rfl, rfl, fun _ => rfl⟩
  case writeAdd d src =>
    exact ⟨.add (lowNibble d) (lowNibble src), fun _ => rfl, rfl, fun hvalid => by
      rw [encode, joinNibbles_lowNibble_of_allValid hvalid]⟩
  case writeSub d src =>
    exact ⟨.sub (lowNibble d) (lowNibble src), fun _ => rfl, rfl, fun hvalid => by
      rw [encode, joinNibbles_lowNibble_of_allValid hvalid]⟩
  case writeInc r => exact ⟨.inc r, fun _ => rfl, rfl, fun _ => rfl⟩
  case writeDec r => exact ⟨.dec r, fun _ => rfl, rfl, fun _ => rfl⟩
  case writeRet => exact ⟨.ret, fun _ => rfl, rfl, fun _ => rfl⟩

/-! ## One command of the idle core (45_host_commands.md R180, R182) -/

theorem step_of_serving {s : State} {c : Command} {rest : List Command} (h : Serving s c rest) :
    step s = .next ({ s with commands := rest }.perform c) := by
  obtain ⟨hinv, hidle, hcommands⟩ := h
  rw [step_idle hinv.cap hidle, State.serveHost, hcommands]

/-- A command whose only effect is its reply. -/
theorem replied_reply {s : State} (hidle : s.runState = .idle) (rest : List Command) (st : Status) (v : Value) :
    Replied s ({ s with commands := rest }.reply st v) rest st v :=
  ⟨hidle, rfl, rfl, rfl⟩

end Sys2Proof.Machine

namespace Sys2Proof.Proofs
open Sys2Proof.Machine Sys2Proof.Claims

/-- Settles O52: every row is the encoder write of one instruction, whose three branches are the three clauses. -/
theorem encoderWritesTheBytesOfEachRule : Obligations.EncoderWritesTheBytesOfEachRule := by
  intro s c rest codes bytes hserving hrow
  obtain ⟨i, hperform, hlength, hencode⟩ := exists_encoderWrite_of_encoderRow hrow
  have hstep := step_of_serving hserving
  rw [hperform] at hstep
  obtain ⟨hinv, hidle, -⟩ := hserving
  rw [← hlength]
  refine ⟨fun hvalid hroom => ?written, fun hinvalid _ => ?invalid, fun hvalid hfull => ?full⟩
  case written =>
    obtain rfl := hencode hvalid
    rw [encoderWrite_of_room (s := { s with commands := rest }) hvalid hroom] at hstep
    refine ⟨_, hstep, replied_reply hidle .., ⟨rfl, rfl⟩, fun k hk => ?_, fun a ha => ?_, ip_add hinv.cap hroom,
      rfl, rfl, rfl⟩
    · rw [hlength] at hk
      rw [List.getElem?_eq_getElem hk]
      exact congrArg some (Memory.get_putBytes hinv.mem s.ip.toNat hk).symm
    · rw [hlength] at ha
      exact Memory.get_putBytes_ne s.mem (encode i) ha
  case invalid =>
    rw [encoderWrite_of_invalid (s := { s with commands := rest }) hinvalid] at hstep
    exact ⟨_, hstep, replied_reply hidle .., sameMemory_of_mem_eq rfl⟩
  case full =>
    rw [encoderWrite_of_no_room (s := { s with commands := rest }) hvalid hfull] at hstep
    exact ⟨_, hstep, replied_reply hidle .., sameMemory_of_mem_eq rfl⟩

end Sys2Proof.Proofs
end

section
/-! Proofs of the family 45_host_commands.md: `reset` (R181). -/

namespace Sys2Proof.Machine

/-- The whole state after `reset`, against power-on (10_state.md R34): the core's fields, ICOUNT apart, are those of
power-on; the streams and the host side are kept. -/
theorem State.resetCore_eq_powerOn (s : State) :
    s.resetCore = { State.powerOn s.cfg with
      icount := Config.freeCount s.freeCtr
      out := s.out
      trace := s.trace
      replies := s.replies
      commands := s.commands
      freeCtr := s.freeCtr + 1 } := rfl

end Sys2Proof.Machine

namespace Sys2Proof.Proofs
open Sys2Proof.Machine

/-- Settles O48: serving `reset` is `resetCore`, which leaves power-on's core, followed by the reply OK; no branch fails. -/
theorem resetCommandReinitialisesTheCore : Obligations.ResetCommandReinitialisesTheCore := by
  intro s rest hserving
  have hstep := step_of_serving hserving
  rw [State.perform, cmdReset, State.resetCore_eq_powerOn] at hstep
  refine ⟨_, hstep, ?replied, ?streams, Memory.get_nil, ?core⟩
  case replied => exact ⟨rfl, rfl, rfl, rfl⟩
  case streams => exact ⟨rfl, rfl⟩
  case core => exact ⟨rfl, rfl, rfl, rfl, rfl⟩

end Sys2Proof.Proofs
end

section
/-! Proofs of the family 60_exceptions.md: IOError comes from `save` and `load` only (R204). -/

namespace Sys2Proof.Machine
open Sys2Proof.Claims

/-- A handler that fails does so in a register check or in a data access. -/
theorem ExecCase.error_of_replies {i : Instr} {s t : State} {e : ErrorKind} {v : Value} (h : ExecCase i s t)
    (hr : t.replies = s.replies ++ [⟨.failed e, v⟩]) : e = .invalidRegister ∨ e = .outOfBounds := by
  cases h with
  | aborted k hk =>
    obtain ⟨rfl, -⟩ : k = e ∧ .nothing = v := by simpa using hr
    exact hk
  | wroteReg r w => simp at hr
  | stored addr w m hm => simp at hr
  | dumped hi => simp at hr
  | halted hi => simp at hr

/-- `c` is a save whose sink takes, or a load whose source yields, fewer than CAP bytes (45_host_commands.md R183,
R184). -/
def Command.StreamTooShort (cap : Nat) (c : Command) : Prop :=
  (∃ k, c = .save (some k) ∧ k < cap) ∨ (∃ source, c = .load source ∧ source.length < cap)

theorem PerformCase.streamTooShort_of_ioError {s t : State} {c : Command} {v : Value} (h : PerformCase s c t)
    (hr : t.replies = s.replies ++ [⟨.failed .ioError, v⟩]) : c.StreamTooShort s.cfg.cap := by
  cases h with
  | kept st w hst =>
    rcases hst with rfl | rfl | rfl | ⟨-, hsave⟩
    · simp at hr
    · simp at hr
    · simp at hr
    · exact .inl hsave
  | loaded source hload f n st hst =>
    rcases hst with rfl | ⟨-, hshort⟩
    · simp at hr
    · exact .inr ⟨source, hload, hshort⟩
  | started hc => simp at hr
  | reset hc => simp at hr
  | encoded i hi => simp at hr
  | wroteReg x w => simp at hr
  | wroteByte m a w hm => simp at hr
  | wroteWord m a w hm => simp at hr

theorem perform_ioError_of_streamTooShort {s : State} {c : Command} (h : c.StreamTooShort s.cfg.cap) :
    ∃ v, (s.perform c).replies = s.replies ++ [⟨.failed .ioError, v⟩] := by
  rcases h with ⟨k, rfl, hk⟩ | ⟨source, rfl, hsource⟩
  · exact ⟨_, by rw [State.perform, cmdSave_short hk, State.reply_replies]⟩
  · exact ⟨_, by rw [State.perform, cmdLoad_short hsource, State.reply_replies, State.resetCore_replies]⟩

/-- The idle core replies IOError only for the command it serves; no other step replies it. -/
theorem StepCase.streamTooShort_of_ioError {s t : State} {v : Value} (h : StepCase s t)
    (hr : t.replies = s.replies ++ [⟨.failed .ioError, v⟩]) :
    s.runState = .idle ∧ ∃ c rest, s.commands = c :: rest ∧ c.StreamTooShort s.cfg.cap := by
  have hsource := fetchInstr_source_replies s
  cases h with
  | served hidle =>
    rcases serveHost_cases s with ⟨-, hwait⟩ | ⟨c, rest, hcommands, hperform⟩
    · simp [hwait] at hr
    · rw [hperform] at hr
      exact ⟨hidle, c, rest, hcommands,
        (perform_cases { s with commands := rest } c).streamTooShort_of_ioError hr⟩
  | executed hrun i u _ hf he =>
    rw [hf] at hsource
    rcases (exec_inv he).error_of_replies (hsource ▸ hr) with hkind | hkind <;> cases hkind
  | stopped hrun e u hf =>
    rw [hf] at hsource
    cases e <;> simp [decodeErrorKind, show u.replies = s.replies from hsource] at hr
  | leftHalted hrun => simp at hr

theorem step_ioError_of_streamTooShort {s : State} {c : Command} {rest : List Command} (hserving : Serving s c rest)
    (h : c.StreamTooShort s.cfg.cap) :
    ∃ t v, step s = .next t ∧ t.replies = s.replies ++ [⟨.failed .ioError, v⟩] := by
  obtain ⟨v, hreplies⟩ := perform_ioError_of_streamTooShort (s := { s with commands := rest }) h
  exact ⟨_, v, step_of_serving hserving, hreplies⟩

end Sys2Proof.Machine

namespace Sys2Proof.Proofs
open Sys2Proof.Machine

/-- Settles O42: among the cases of a step only a served command with a stream that is too short replies IOError, and
every such command does. -/
theorem ioErrorComesFromSaveAndLoadOnly : Obligations.IoErrorComesFromSaveAndLoadOnly := by
  refine ⟨fun s t v _ hstep hreplies => ?only, fun s k rest hserving hk => ?save,
    fun s source rest hserving hshort => ?load⟩
  case only =>
    obtain ⟨-, hcase⟩ := step_inv hstep
    obtain ⟨hidle, c, rest, hcommands, hshort⟩ := hcase.streamTooShort_of_ioError hreplies
    rcases hshort with ⟨k, rfl, hk⟩ | ⟨source, rfl, hshort⟩
    · exact ⟨hidle, .inl ⟨k, rest, hcommands, hk⟩⟩
    · exact ⟨hidle, .inr ⟨source, rest, hcommands, hshort⟩⟩
  case save => exact step_ioError_of_streamTooShort hserving (.inl ⟨k, rfl, hk⟩)
  case load => exact step_ioError_of_streamTooShort hserving (.inr ⟨source, rfl, hshort⟩)

end Sys2Proof.Proofs
end

section
/-! Proofs of the families 30_encoding.md (round trips, R80 to R89) and 40_fde_loop.md section 2: what a step makes of the
bytes at IP. -/

namespace Sys2Proof.Machine
open Sys2Proof.Claims

/-! ## Round trip of the decoder (30_encoding.md section 7) -/

theorem length_encode (i : Instr) : (encode i).length = i.length := by
  cases i <;> rfl

theorem decode_encode_append (i : Instr) (rest : List Byte) : decode (encode i ++ rest) = .instr i rest := by
  cases i <;> simp [encode]

/-! ## Where a decode attempt on a list of bytes stops (30_encoding.md section 5) -/

section
variable {bytes rest : List Byte} {e : DecodeError}

theorem fetch_takeByte_eq_stop {next : Byte → List Byte → Decoded (List Byte)}
    (h : Decoded.fetch takeByte bytes next = .stop e rest) :
    (e = .missingByte ∧ bytes = []) ∨ ∃ v left, bytes = v :: left ∧ next v left = .stop e rest := by
  cases bytes with
  | nil => cases h; exact .inl ⟨rfl, rfl⟩
  | cons v left => exact .inr ⟨v, left, rfl, h⟩

/-- A word operand that cannot be fetched is short of one byte or of both, so the bytes begin some word. -/
theorem fetch_takeWord_eq_stop {next : Word → List Byte → Decoded (List Byte)}
    (h : Decoded.fetch takeWord bytes next = .stop e rest) :
    (e = .missingByte ∧ bytes.length < 2 ∧ ∃ w, bytes <+: [loByte w, hiByte w]) ∨
      ∃ w left, bytes = loByte w :: hiByte w :: left ∧ next w left = .stop e rest := by
  match bytes with
  | [] => cases h; exact .inl ⟨rfl, by simp, 0#16, List.nil_prefix⟩
  | [lo] => cases h; exact .inl ⟨rfl, by simp, joinBytes lo 0#8, by simp⟩
  | lo :: hi :: left => exact .inr ⟨joinBytes lo hi, left, by simp, h⟩

/-- The bytes are a proper beginning of the encoding of some instruction. -/
def EndsInsideInstr (bytes : List Byte) : Prop := ∃ i, bytes.length < (encode i).length ∧ bytes <+: encode i

/-! One lemma per format of R82: each says where the operands after the opcode byte `op` can be cut off. -/

variable {op : Byte} {operands : List Byte}

theorem byteOperand_stop (make : Byte → Instr) (hmake : ∀ v, encode (make v) = [op, v])
    (h : Decoded.fetch takeByte operands (fun v left => .instr (make v) left) = .stop e rest) :
    e = .missingByte ∧ EndsInsideInstr (op :: operands) := by
  rcases fetch_takeByte_eq_stop h with ⟨rfl, rfl⟩ | ⟨v, left, rfl, hend⟩
  · exact ⟨rfl, make 0x00#8, by simp [hmake]⟩
  · cases hend

theorem byteWordOperands_stop (make : Byte → Word → Instr) (hmake : ∀ v w, encode (make v w) = [op, v, loByte w, hiByte w])
    (h : Decoded.fetch takeByte operands
      (fun v left => Decoded.fetch takeWord left fun w left => .instr (make v w) left) = .stop e rest) :
    e = .missingByte ∧ EndsInsideInstr (op :: operands) := by
  rcases fetch_takeByte_eq_stop h with ⟨rfl, rfl⟩ | ⟨v, left, rfl, hword⟩
  · exact ⟨rfl, make 0x00#8 0#16, by simp [hmake]⟩
  · rcases fetch_takeWord_eq_stop hword with ⟨rfl, hshort, w, hw⟩ | ⟨w, left, rfl, hend⟩
    · exact ⟨rfl, make v w, by simpa [hmake] using ⟨by omega, hw⟩⟩
    · cases hend

theorem wordByteOperands_stop (make : Word → Byte → Instr) (hmake : ∀ w v, encode (make w v) = [op, loByte w, hiByte w, v])
    (h : Decoded.fetch takeWord operands
      (fun w left => Decoded.fetch takeByte left fun v left => .instr (make w v) left) = .stop e rest) :
    e = .missingByte ∧ EndsInsideInstr (op :: operands) := by
  rcases fetch_takeWord_eq_stop h with ⟨rfl, hshort, w, hw⟩ | ⟨w, left, rfl, hbyte⟩
  · have hcut : operands <+: [loByte w, hiByte w, 0x00#8] := hw.trans (by simp)
    exact ⟨rfl, make w 0x00#8, by simpa [hmake] using ⟨by omega, hcut⟩⟩
  · rcases fetch_takeByte_eq_stop hbyte with ⟨rfl, rfl⟩ | ⟨v, left, rfl, hend⟩
    · exact ⟨rfl, make w 0x00#8, by simp [hmake]⟩
    · cases hend

theorem decode_eq_stop (h : decode bytes = .stop e rest) :
    (e = .unknownOpcode ∧ ∃ op : Byte, bytes = op :: rest ∧ 9 ≤ op.toNat) ∨
      (e = .missingByte ∧ EndsInsideInstr bytes) := by
  rcases fetch_takeByte_eq_stop h with ⟨rfl, rfl⟩ | ⟨op, operands, rfl, hrow⟩
  · exact .inr ⟨rfl, .ret, by simp [encode]⟩
  split at hrow <;> rename_i hop
  case h_10 =>
    cases hrow
    refine .inl ⟨rfl, op, rfl, ?_⟩
    simp only [imp_false] at *
    omega
  all_goals obtain ⟨-, rfl⟩ := BitVec.toNat_eq_nat.1 hop; right
  case h_1 => exact byteWordOperands_stop .movToReg (fun _ _ => rfl) hrow
  case h_2 => exact wordByteOperands_stop .movToRam (fun _ _ => rfl) hrow
  case h_3 => exact byteWordOperands_stop .movFromRam (fun _ _ => rfl) hrow
  case h_4 | h_9 => cases hrow -- Dumpreg, Ret: the opcode alone
  case h_5 => exact byteOperand_stop (fun p => .add (highNibble p) (lowNibble p)) (by simp [encode]) hrow
  case h_6 => exact byteOperand_stop (fun p => .sub (highNibble p) (lowNibble p)) (by simp [encode]) hrow
  case h_7 => exact byteOperand_stop .inc (fun _ => rfl) hrow
  case h_8 => exact byteOperand_stop .dec (fun _ => rfl) hrow

end

/-! ## The state in which a handler runs (40_fde_loop.md R113; log 12) -/

/-- The state with `n` more bytes consumed. -/
def State.advance (s : State) (n : Nat) : State := { s with ip := s.ip + BitVec.ofNat 16 n }

@[simp] theorem State.readReg_advance (s : State) (n : Nat) (x : Reg) : (s.advance n).readReg x = s.readReg x := by
  cases x <;> rfl

/-- Where the bytes at IP decode to an instruction, its bytes lie inside memory. -/
theorem room_of_decode {s : State} {i : Instr} {rest : List Byte} (hip : s.ip.toNat ≤ s.cfg.cap)
    (h : decode s.bytesAtIp = .instr i rest) : s.ip.toNat + i.length ≤ s.cfg.cap := by
  have hlength := congrArg List.length (decode_eq_instr h)
  rw [List.length_append, bytesAtIp_length, length_encode] at hlength
  omega

theorem fetchInstr_eq_of_decode {s : State} {i : Instr} {rest : List Byte} (hinv : s.Inv)
    (h : decode s.bytesAtIp = .instr i rest) : s.fetchInstr = .instr i (s.advance i.length) := by
  obtain ⟨u, hfetch, hip⟩ := fetchInstr_of_decode hinv.cap hinv.ip h
  obtain ⟨ip, hsource⟩ := fetchInstr_moves_ip_only s
  rw [hfetch] at hsource
  obtain rfl : u = { s with ip := ip } := hsource
  obtain rfl : ip = s.ip + BitVec.ofNat 16 i.length := by
    rw [length_encode, ← ip_add hinv.cap (room_of_decode hinv.ip h)] at hip
    exact BitVec.eq_of_toNat_eq hip
  exact hfetch

theorem step_of_decode {s : State} {i : Instr} {rest : List Byte} (hinv : s.Inv) (hrun : s.runState = .running)
    (h : decode s.bytesAtIp = .instr i rest) : step s = exec i (s.advance i.length) :=
  (step_running hinv.cap hrun).trans (runInstr_of_instr (fetchInstr_eq_of_decode hinv h))

/-! ## Aborts (60_exceptions.md R207) -/

/-- The abort, in the statements' vocabulary, from any state that differs from `s` in IP alone. -/
theorem abortedTo_abort (s : State) (ip : Word) (e : ErrorKind) :
    AbortedTo s ({ s with ip := ip }.abort e) ip.toNat e := ⟨rfl, rfl⟩

theorem stepAborts_of_decode_stop {s : State} {e : DecodeError} {rest : List Byte} (hinv : s.Inv)
    (hrun : s.runState = .running) (h : decode s.bytesAtIp = .stop e rest) :
    StepAborts s (s.cfg.cap - rest.length) (decodeErrorKind e) := by
  obtain ⟨ip, hsource, -, hcap⟩ := fetchInstr_source hinv.cap hinv.ip
  rw [decode_bytesAtIp s hinv.cap] at h
  cases hf : s.fetchInstr with
  | instr i u => rw [hf] at h; cases h
  | stop k u =>
    rw [hf] at h hsource
    obtain rfl : u = { s with ip := ip } := hsource
    cases h
    have hip : s.cfg.cap - (State.bytesAtIp { s with ip := ip }).length = ip.toNat := by
      rw [bytesAtIp_length]; exact Nat.sub_sub_self hcap
    rw [hip]
    exact ⟨_, (step_running hinv.cap hrun).trans (runInstr_of_stop hf), abortedTo_abort s ip _⟩

end Sys2Proof.Machine

namespace Sys2Proof.Proofs
open Sys2Proof.Machine Sys2Proof.Claims

/-- Settles O1: by the decoder's nine rows. -/
theorem writtenOutWordsDecode : Obligations.WrittenOutWordsDecode := by
  unfold Obligations.WrittenOutWordsDecode
  simp only [decode_movToReg, decode_movToRam, decode_movFromRam, decode_dumpreg, decode_add, decode_sub, decode_inc,
    decode_dec, decode_ret]
  decide

/-- Settles O3: the bytes a decode attempt consumes are the encoding, row by row of the decoder. -/
theorem decodedBytesAreTheEncoding : Obligations.DecodedBytesAreTheEncoding :=
  fun _ _ _ h => decode_eq_instr h

/-- Settles O4: each row of the decoder stops only where an operand of its format is cut off. -/
theorem decoderStopsOnlyForTwoReasons : Obligations.DecoderStopsOnlyForTwoReasons :=
  fun _ _ _ h => decode_eq_stop h

/-- Settles O14: the fetch answers the decoded instruction and moves IP past its bytes. -/
theorem stepRunsTheDecodedInstruction : Obligations.StepRunsTheDecodedInstruction :=
  fun _ _ _ hinv hrun h => step_of_decode hinv hrun h

/-- Settles O15: the fetch stops where the decoder does, and IP is CAP less the bytes that are left. -/
theorem stepAbortsWhereDecodingStops : Obligations.StepAbortsWhereDecodingStops := by
  intro s e rest hinv hrun h
  have haborts := stepAborts_of_decode_stop hinv hrun h
  cases e <;> exact haborts

end Sys2Proof.Proofs
end

section
/-! Proofs about the nine handlers: 41_data_movement.md, 42_arithmetic.md, 43_system.md, and the errors a handler raises
(60_exceptions.md R201, R202). Each handler gets one equation per outcome; the statements are read off them. -/

namespace Sys2Proof.Machine
open Sys2Proof.Claims

/-! ## Register codes in the statements' vocabulary (30_encoding.md R84, R85) -/

@[simp] theorem regCheck_codeOf (x : Reg) : regCheck (codeOf x) = .ok x := by
  cases x <;> rfl

@[simp] theorem nibbleCode_nibbleOf (x : Reg) : nibbleCode (nibbleOf x) = codeOf x := by
  cases x <;> rfl

theorem regCheck_of_two_le {c : Byte} (h : 2 ≤ c.toNat) : regCheck c = .error .invalidRegister := by
  rw [regCheck_toNat, if_neg (by omega), if_neg (by omega)]

theorem regCheck_eq_ok {c : Byte} {x : Reg} :
    regCheck c = .ok x ↔ (if c.toNat = 0 then some Reg.A else if c.toNat = 1 then some .B else none) = some x := by
  rw [regCheck_toNat]
  split
  · simp
  · split <;> simp

theorem littleEndian_eq_joinBytes (lo hi : Byte) : littleEndian lo hi = joinBytes lo hi := by
  have hlo : lo.toNat < 2 ^ 8 := lo.isLt
  have hhi : hi.toNat < 2 ^ 8 := hi.isLt
  refine BitVec.eq_of_toNat_eq ?_
  rw [littleEndian, toNat_joinBytes, BitVec.toNat_ofNat]
  omega

/-! ## A handler as a chain of checks that ends in one effect -/

theorem bind_eq_ok {ε α β : Type} {r : Except ε α} {f : α → Except ε β} {b : β} :
    r >>= f = .ok b ↔ ∃ a, r = .ok a ∧ f a = .ok b := by
  cases r with
  | ok a => simp [bind, Except.bind]
  | error e => simp [bind, Except.bind]

/-- A chain of checks goes on after a check that passes. -/
theorem bind_of_ok {ε α β : Type} {r : Except ε α} {a : α} (h : r = .ok a) (f : α → Except ε β) : r >>= f = f a := by
  rw [h]; rfl

/-- A chain of checks fails with the error of its first check. -/
theorem bind_of_error {ε α β : Type} {r : Except ε α} {e : ε} (h : r = .error e) (f : α → Except ε β) :
    r >>= f = .error e := by
  rw [h]; rfl

/-! ## The equation of each handler that completes -/

section
variable (s : State) (x y : Reg) (w : Word)

theorem exec_movToReg : exec (.movToReg (codeOf x) w) s = .next ((s.writeReg x w).retire (.movToReg (codeOf x) w)) := by
  rw [exec, execMovToReg, bind_of_ok (regCheck_codeOf x)]; rfl

theorem exec_movToRam (h : w.toNat + 2 ≤ s.cfg.cap) : exec (.movToRam w (codeOf x)) s = .next
    ({ s with mem := Memory.putBytes s.mem w.toNat [loByte (s.readReg x), hiByte (s.readReg x)] }.retire
      (.movToRam w (codeOf x))) := by
  rw [exec, execMovToRam, bind_of_ok (regCheck_codeOf x), cellIndex, bind_of_ok (Memory.writeWord_eq_ok.2 ⟨h, rfl⟩)]; rfl

theorem exec_movFromRam (h : w.toNat + 2 ≤ s.cfg.cap) : exec (.movFromRam (codeOf x) w) s = .next
    ((s.writeReg x (littleEndian (s.byteAt w.toNat) (s.byteAt (w.toNat + 1)))).retire (.movFromRam (codeOf x) w)) := by
  rw [exec, execMovFromRam, bind_of_ok (regCheck_codeOf x), cellIndex, bind_of_ok (Memory.readWord_eq_ok.2 ⟨h, rfl⟩),
    littleEndian_eq_joinBytes]; rfl

theorem exec_dumpreg : exec .dumpreg s = .next (s.emitOut.retire .dumpreg) := rfl

theorem exec_add : exec (.add (nibbleOf x) (nibbleOf y)) s = .next
    ((s.writeReg x (s.readReg x + s.readReg y)).retire (.add (nibbleOf x) (nibbleOf y))) := by
  rw [exec, execAdd, State.pairOp, nibbleCode_nibbleOf, nibbleCode_nibbleOf, regCheck_codeOf, regCheck_codeOf]; rfl

theorem exec_sub : exec (.sub (nibbleOf x) (nibbleOf y)) s = .next
    ((s.writeReg x (s.readReg x - s.readReg y)).retire (.sub (nibbleOf x) (nibbleOf y))) := by
  rw [exec, execSub, State.pairOp, nibbleCode_nibbleOf, nibbleCode_nibbleOf, regCheck_codeOf, regCheck_codeOf]; rfl

theorem exec_inc : exec (.inc (codeOf x)) s = .next
    ((s.writeReg x (s.readReg x + 1#16)).retire (.inc (codeOf x))) := by
  rw [exec, execInc, State.regOp, bind_of_ok (regCheck_codeOf x)]; rfl

theorem exec_dec : exec (.dec (codeOf x)) s = .next
    ((s.writeReg x (s.readReg x - 1#16)).retire (.dec (codeOf x))) := by
  rw [exec, execDec, State.regOp, bind_of_ok (regCheck_codeOf x)]; rfl

/-! ## The equation of each handler that aborts -/

theorem exec_movToRam_outside (h : s.cfg.cap < w.toNat + 2) :
    exec (.movToRam w (codeOf x)) s = .next (s.abort .outOfBounds) := by
  rw [exec, execMovToRam, bind_of_ok (regCheck_codeOf x), cellIndex,
    bind_of_error (Memory.writeWord_eq_error.2 ⟨h, rfl⟩)]; rfl

theorem exec_movFromRam_outside (h : s.cfg.cap < w.toNat + 2) :
    exec (.movFromRam (codeOf x) w) s = .next (s.abort .outOfBounds) := by
  rw [exec, execMovFromRam, bind_of_ok (regCheck_codeOf x), cellIndex,
    bind_of_error (Memory.readWord_eq_error.2 ⟨h, rfl⟩)]; rfl

end

/-- The five instructions with a register byte check it first (decision D6). -/
theorem exec_of_invalid_code (s : State) {r : Byte} (h : 2 ≤ r.toNat) (w : Word) {i : Instr}
    (hi : i ∈ [Instr.movToReg r w, .movToRam w r, .movFromRam r w, .inc r, .dec r]) :
    exec i s = .next (s.abort .invalidRegister) := by
  have checked : ∀ f : Reg → Except ErrorKind State, s.conclude i (regCheck r >>= f) = .next (s.abort .invalidRegister) :=
    fun f => by rw [bind_of_error (regCheck_of_two_le h), conclude_error]
  simp only [List.mem_cons, List.not_mem_nil, or_false] at hi
  rcases hi with rfl | rfl | rfl | rfl | rfl <;> exact checked _

theorem pairOp_of_invalid_nibble (s : State) (f : Word → Word → Word) {d src : BitVec 4} (h : 2 ≤ d.toNat ∨ 2 ≤ src.toNat) :
    s.pairOp f d src = .error .invalidRegister := by
  rcases pairOp_cases s f d src with ⟨rd, rs, hd, hsrc, -⟩ | ⟨-, hpair⟩
  · rcases h with h | h <;> rw [← toNat_nibbleCode] at h
    · rw [regCheck_of_two_le h] at hd; cases hd
    · rw [regCheck_of_two_le h] at hsrc; cases hsrc
  · exact hpair

/-- Add and Sub check both nibbles first. -/
theorem exec_of_invalid_nibble (s : State) {d src : BitVec 4} (h : 2 ≤ d.toNat ∨ 2 ≤ src.toNat) {i : Instr}
    (hi : i ∈ [Instr.add d src, .sub d src]) : exec i s = .next (s.abort .invalidRegister) := by
  have hpair := fun f => pairOp_of_invalid_nibble s f h
  simp only [List.mem_cons, List.not_mem_nil, or_false] at hi
  rcases hi with rfl | rfl
  · rw [exec, execAdd, hpair, conclude_error]
  · rw [exec, execSub, hpair, conclude_error]

/-! ## From an equation to the statements' vocabulary -/

section
variable {i : Instr} {s : State}

theorem execAborts_of_eq {e : ErrorKind} (h : exec i s = .next (s.abort e)) : ExecAborts i s e :=
  ⟨_, h, abortedTo_abort s s.ip e⟩

theorem execCompletes_imp {P Q : State → Prop} (h : ExecCompletes i s P) (hPQ : ∀ t, P t → Q t) : ExecCompletes i s Q := by
  obtain ⟨t, hexec, hretired, hip, hpost⟩ := h
  exact ⟨t, hexec, hretired, hip, hPQ t hpost⟩

theorem otherRegsSame_writeReg (s : State) (x : Reg) (v : Word) : OtherRegsSame x s (s.writeReg x v) := fun y hy => by
  rw [State.readReg_writeReg, if_neg hy]

/-- An instruction whose effect is one register write. -/
theorem execCompletes_of_writeReg {x : Reg} {v : Word} (h : exec i s = .next ((s.writeReg x v).retire i)) :
    ExecCompletes i s fun t => t.readReg x = v ∧ OtherRegsSame x s t ∧ t.mem = s.mem ∧ t.out = s.out :=
  ⟨_, h, rfl, rfl, (State.readReg_writeReg s x x v).trans (if_pos rfl), otherRegsSame_writeReg s x v, rfl, rfl⟩

end

theorem storeCompletes {s : State} (x : Reg) {addr : Word} (hwf : Memory.wf s.mem) (h : addr.toNat + 2 ≤ s.cfg.cap) :
    ExecCompletes (.movToRam addr (codeOf x)) s fun t =>
      t.byteAt addr.toNat = loByte (s.readReg x) ∧ t.byteAt (addr.toNat + 1) = hiByte (s.readReg x) ∧
      SameMemoryOutside s t addr.toNat 2 ∧ t.a = s.a ∧ t.b = s.b ∧ t.out = s.out :=
  ⟨_, exec_movToRam s x addr h, rfl, rfl, Memory.get_putWord_low hwf _ _, Memory.get_putWord_high hwf _ _,
    fun _ ha => Memory.get_putBytes_ne s.mem _ ha, rfl, rfl, rfl⟩

/-! ## The ALU in numbers (42_arithmetic.md R140; decision D7) -/

theorem toNat_sub_int (x y : Word) : ((x - y).toNat : Int) = (x.toNat - y.toNat : Int) % 65536 := by
  have hx : x.toNat < 65536 := x.isLt
  have hy : y.toNat < 65536 := y.isLt
  rw [BitVec.toNat_sub]
  omega

end Sys2Proof.Machine

namespace Sys2Proof.Proofs
open Sys2Proof.Machine Sys2Proof.Claims

/-- Settles O30: both handlers pass the register check and fail in the data access. -/
theorem dataAddressOutsideMemoryAborts : Obligations.DataAddressOutsideMemoryAborts := fun s x addr h =>
  ⟨execAborts_of_eq (exec_movToRam_outside s x addr h), execAborts_of_eq (exec_movFromRam_outside s x addr h)⟩

/-- Settles O2: the decoder inverts the encoder whatever follows, the bytes at IP then decide the step, and an address
CAP-1 leaves its second cell outside memory. -/
theorem encodedInstructionDecodesToItself : Obligations.EncodedInstructionDecodesToItself := by
  refine ⟨decode_encode_append, fun s i hinv hrun hat => ?_, fun s hcap addr x haddr => ?_⟩
  · obtain ⟨rest, hbytes⟩ := hat
    exact step_of_decode hinv hrun (hbytes ▸ decode_encode_append i rest)
  · have hout : s.cfg.cap < addr.toNat + 2 := by obtain ⟨hpos, -⟩ := hcap; omega
    exact dataAddressOutsideMemoryAborts s x addr hout

/-- Settles O24: each load is one register write. -/
theorem loadsCompleteWithTheRegistersNewValue : Obligations.LoadsCompleteWithTheRegistersNewValue :=
  ⟨fun s x imm => execCompletes_of_writeReg (exec_movToReg s x imm),
    fun s x addr h => execCompletes_of_writeReg (exec_movFromRam s x addr h)⟩

/-- Settles O25: the store writes the two cells of a little-endian word. -/
theorem storeCompletesWithALittleEndianWord : Obligations.StoreCompletesWithALittleEndianWord :=
  fun _ x _ hwf h => storeCompletes x hwf h

/-- Settles O26: each is one register write of an ALU result, whose value modulo 65536 is that of 16-bit arithmetic. -/
theorem arithmeticCompletesWithWrappedResults : Obligations.ArithmeticCompletesWithWrappedResults := by
  intro s d src
  refine ⟨execCompletes_imp (execCompletes_of_writeReg (exec_add s d src)) ?add,
    execCompletes_imp (execCompletes_of_writeReg (exec_sub s d src)) ?sub,
    execCompletes_imp (execCompletes_of_writeReg (exec_inc s d)) ?inc,
    execCompletes_imp (execCompletes_of_writeReg (exec_dec s d)) ?dec⟩
  all_goals
    rintro t ⟨hresult, hframe⟩
    refine ⟨?_, hframe⟩
    rw [hresult]
  case add | inc => exact BitVec.toNat_add _ _
  case sub | dec => exact toNat_sub_int _ _

/-- Settles O27: Dumpreg's handler has no check. -/
theorem dumpregCompletesWithOneRecord : Obligations.DumpregCompletesWithOneRecord := exec_dumpreg

/-- Settles O7: a word is its two bytes joined, and the handlers use it as it stands. -/
theorem wordOperandsAreLittleEndian : Obligations.WordOperandsAreLittleEndian := by
  refine ⟨fun r lo hi rest => ?decoded, fun x w => ?wellFormed, fun s x w hinv => ⟨?immediate, fun hin => ⟨?store, ?load⟩,
    fun hout => dataAddressOutsideMemoryAborts s x w hout⟩⟩
  case decoded =>
    exact ⟨joinBytes lo hi, toNat_joinBytes lo hi, decode_movToReg r lo hi rest, decode_movToRam lo hi r rest,
      decode_movFromRam r lo hi rest⟩
  case wellFormed => cases x <;> exact ⟨rfl, rfl, rfl⟩
  case immediate => exact execCompletes_imp (execCompletes_of_writeReg (exec_movToReg s x w)) fun _ ⟨hvalue, _⟩ => hvalue
  case store => exact execCompletes_imp (storeCompletes x hinv.mem hin) fun _ ⟨hlow, _⟩ => hlow
  case load =>
    refine execCompletes_imp (execCompletes_of_writeReg (exec_movFromRam s x w hin)) fun t ⟨hvalue, _⟩ => ?_
    rw [hvalue, littleEndian_eq_joinBytes, loByte_joinBytes]

end Sys2Proof.Proofs
end

section
/-! Proofs of the handlers' frames: what each leaves unchanged, completed or aborted (10_state.md section 3,
41_data_movement.md, 42_arithmetic.md, 43_system.md, 60_exceptions.md section 3). -/

namespace Sys2Proof.Machine
open Sys2Proof.Claims

/-! ## The six register instructions: one write to the destination -/

/-- Where the chain of checks `r` of instruction `i` ends in an effect, the effect is one write to the destination. -/
def WritesDestination (i : Instr) (s : State) (r : Except ErrorKind State) : Prop :=
  ∀ u, r = .ok u → ∃ x v, destination i = some x ∧ u = s.writeReg x v

theorem pairOp_writes {s u : State} {f : Word → Word → Word} {d src : BitVec 4} (h : s.pairOp f d src = .ok u) :
    ∃ x v, (if d.toNat = 0 then some Reg.A else if d.toNat = 1 then some .B else none) = some x ∧ u = s.writeReg x v := by
  rcases pairOp_cases s f d src with ⟨rd, rs, hd, -, hpair⟩ | ⟨-, hpair⟩ <;> rw [hpair] at h <;> cases h
  rw [← toNat_nibbleCode]
  exact ⟨rd, _, regCheck_eq_ok.1 hd, rfl⟩

theorem regOp_writes {s u : State} {f : Word → Word} {r : Byte} (h : s.regOp f r = .ok u) :
    ∃ x v, (if r.toNat = 0 then some Reg.A else if r.toNat = 1 then some .B else none) = some x ∧ u = s.writeReg x v := by
  rcases regOp_cases s f r with ⟨x, hx, hop⟩ | ⟨-, hop⟩ <;> rw [hop] at h <;> cases h
  exact ⟨x, _, regCheck_eq_ok.1 hx, rfl⟩

theorem exec_of_registerOnly {i : Instr} (hi : RegisterOnly i) (s : State) :
    ∃ r, exec i s = s.conclude i r ∧ WritesDestination i s r := by
  cases i with
  | movToReg r imm =>
    refine ⟨_, rfl, fun u hu => ?_⟩
    obtain ⟨x, hx, hend⟩ := bind_eq_ok.1 hu
    cases hend
    exact ⟨x, imm, regCheck_eq_ok.1 hx, rfl⟩
  | movFromRam r addr =>
    refine ⟨_, rfl, fun u hu => ?_⟩
    obtain ⟨x, hx, hload⟩ := bind_eq_ok.1 hu
    obtain ⟨v, -, hend⟩ := bind_eq_ok.1 hload
    cases hend
    exact ⟨x, v, regCheck_eq_ok.1 hx, rfl⟩
  | add d src => exact ⟨_, rfl, fun _ => pairOp_writes⟩
  | sub d src => exact ⟨_, rfl, fun _ => pairOp_writes⟩
  | inc r => exact ⟨_, rfl, fun _ => regOp_writes⟩
  | dec r => exact ⟨_, rfl, fun _ => regOp_writes⟩
  | movToRam addr r => exact hi.elim
  | dumpreg => exact hi.elim
  | ret => exact hi.elim

theorem exec_registerOnly_cases {i : Instr} {s t : State} (hi : RegisterOnly i) (h : exec i s = .next t) :
    (∃ x v, destination i = some x ∧ t = (s.writeReg x v).retire i) ∨ ∃ e, t = s.abort e := by
  obtain ⟨r, hexec, hwrites⟩ := exec_of_registerOnly hi s
  rw [hexec] at h
  rcases conclude_cases h with ⟨u, hu, rfl⟩ | ⟨e, -, rfl⟩
  · obtain ⟨x, v, hx, rfl⟩ := hwrites u hu
    exact .inl ⟨x, v, hx, rfl⟩
  · exact .inr ⟨e, rfl⟩

/-! ## MovToRam: one word stored -/

theorem exec_movToRam_cases {s t : State} {addr : Word} {r : Byte} (h : exec (.movToRam addr r) s = .next t) :
    (∃ v, t = { s with mem := Memory.putBytes s.mem (cellIndex addr) [loByte v, hiByte v] }.retire (.movToRam addr r)) ∨
      ∃ e, t = s.abort e := by
  rcases conclude_cases h with ⟨u, hu, rfl⟩ | ⟨e, -, rfl⟩
  · obtain ⟨x, -, hstore⟩ := bind_eq_ok.1 hu
    obtain ⟨m, hm, hend⟩ := bind_eq_ok.1 hstore
    cases hend
    obtain ⟨-, rfl⟩ := Memory.writeWord_eq_ok.1 hm
    exact .inl ⟨_, rfl⟩
  · exact .inr ⟨e, rfl⟩

/-! ## How a handler leaves the run -/

theorem runGoesOnOrAborts_abort (i : Instr) (s : State) (e : ErrorKind) : RunGoesOnOrAborts i s (s.abort e) :=
  .inr ⟨rfl, ⟨e, rfl⟩, rfl⟩

/-- A run that goes on is not idle. -/
theorem not_idle_of_runState_eq {s t : State} (h : t.runState = s.runState) (hidle : t.runState = .idle) :
    s.runState ≠ .running := by
  rw [← h, hidle]; exact nofun

end Sys2Proof.Machine

namespace Sys2Proof.Proofs
open Sys2Proof.Machine Sys2Proof.Claims

/-- Settles O31: each of the six ends in one write to its destination, or aborts before it. -/
theorem registerInstructionsFrame : Obligations.RegisterInstructionsFrame := by
  intro i s t hi h
  rcases exec_registerOnly_cases hi h with ⟨x, v, hx, rfl⟩ | ⟨e, rfl⟩
  · refine ⟨fun y hy => ?_, sameMemory_of_mem_eq rfl, rfl, rfl, rfl, rfl, .inl ⟨rfl, rfl, rfl, rfl, rfl⟩,
      fun hidle hrun => absurd hrun (not_idle_of_runState_eq (s := s) rfl hidle)⟩
    exact otherRegsSame_writeReg s x v y fun hyx => hy (hyx ▸ hx)
  · exact ⟨fun _ _ => rfl, sameMemory_of_mem_eq rfl, rfl, rfl, rfl, rfl, runGoesOnOrAborts_abort i s e,
      fun _ _ => ⟨rfl, rfl⟩⟩

/-- Settles O32: the store writes two bytes at its address, or aborts before it. -/
theorem storeFrame : Obligations.StoreFrame := by
  intro s t addr r h
  rcases exec_movToRam_cases h with ⟨v, rfl⟩ | ⟨e, rfl⟩
  · exact ⟨fun _ ha => Memory.get_putBytes_ne s.mem _ ha, rfl, rfl, rfl, rfl, rfl, rfl, .inl ⟨rfl, rfl, rfl, rfl, rfl⟩,
      fun hidle hrun => absurd hrun (not_idle_of_runState_eq (s := s) rfl hidle)⟩
  · exact ⟨fun _ _ => rfl, rfl, rfl, rfl, rfl, rfl, rfl, runGoesOnOrAborts_abort _ s e, fun _ _ => sameMemory_of_mem_eq rfl⟩

/-- Settles O33: Dumpreg only appends to OUT and Ret only halts, after which each is counted and traced. -/
theorem systemInstructionsFrame : Obligations.SystemInstructionsFrame := by
  intro i s t hi h
  rcases hi with rfl | rfl
  · rw [exec_dumpreg] at h
    cases h
    exact ⟨rfl, rfl, sameMemory_of_mem_eq rfl, rfl, rfl, rfl, fun _ => ⟨rfl, rfl, rfl, rfl⟩, nofun⟩
  · rw [exec_ret] at h
    cases h
    exact ⟨rfl, rfl, sameMemory_of_mem_eq rfl, rfl, rfl, rfl, nofun, fun _ => rfl⟩

end Sys2Proof.Proofs
end

section
/-! Proofs of the steps of a run, opcode by opcode: every outcome in checking order (40_fde_loop.md section 2,
41_data_movement.md, 42_arithmetic.md, 43_system.md, 60_exceptions.md section 3). -/

namespace Sys2Proof.Machine
open Sys2Proof.Claims

/-! ## The cells an instruction at IP is made of -/

/-- The `n` cells from address `a`. -/
def State.cells (s : State) (a n : Nat) : List Byte := (List.range n).map fun k => s.byteAt (a + k)

theorem State.cells_add (s : State) (a m n : Nat) : s.cells a (m + n) = s.cells a m ++ s.cells (a + m) n := by
  simp only [State.cells, List.range_add, List.map_append, List.map_map, Function.comp_def, Nat.add_assoc]

theorem bytesAtIp_eq_cells {s : State} {n : Nat} (h : s.ip.toNat + n = s.cfg.cap) : s.bytesAtIp = s.cells s.ip.toNat n := by
  rw [State.bytesAtIp, ← h, Nat.add_sub_cancel_left]; rfl

theorem bytesAtIp_eq_cells_append {s : State} {n : Nat} (h : s.ip.toNat + n ≤ s.cfg.cap) :
    ∃ rest, s.bytesAtIp = s.cells s.ip.toNat n ++ rest := by
  obtain ⟨m, hm⟩ := Nat.exists_eq_add_of_le h
  exact ⟨_, (bytesAtIp_eq_cells (by omega)).trans (s.cells_add s.ip.toNat n m)⟩

/-! ## From the bytes at IP to the step -/

section
variable {s : State} {op : Byte} {i : Instr} {n : Nat}

/-- The opcode and `n` cells after it decode to `i`: the step is the handler of `i`. -/
theorem step_atOpcode (hat : AtOpcode s op) (hroom : s.ip.toNat + (1 + n) ≤ s.cfg.cap)
    (hdecode : ∀ rest, decode (op :: s.cells (s.ip.toNat + 1) n ++ rest) = .instr i rest) :
    step s = exec i (s.advance i.length) := by
  obtain ⟨hinv, hrun, -, rfl⟩ := hat
  obtain ⟨rest, hbytes⟩ := bytesAtIp_eq_cells_append hroom
  refine step_of_decode hinv hrun (rest := rest) ?_
  rw [hbytes, State.cells_add]
  exact hdecode rest

/-- Memory ends `n` cells after the opcode, inside the instruction, and the decoder leaves `rest`. -/
theorem stepAborts_atOpcode (hat : AtOpcode s op) (hend : s.ip.toNat + (1 + n) = s.cfg.cap) {rest : List Byte}
    (hdecode : decode (op :: s.cells (s.ip.toNat + 1) n) = .stop .missingByte rest) :
    StepAborts s (s.ip.toNat + (1 + n) - rest.length) .outOfBounds := by
  obtain ⟨hinv, hrun, -, rfl⟩ := hat
  rw [hend]
  refine stepAborts_of_decode_stop hinv hrun (e := .missingByte) ?_
  rw [bytesAtIp_eq_cells hend, State.cells_add]
  exact hdecode

/-- Memory ends with the opcode. -/
theorem stepAborts_lastCell (hat : AtOpcode s op) (hdecode : decode [op] = .stop .missingByte [])
    (hend : s.cfg.cap ≤ s.ip.toNat + 1) : StepAborts s (s.ip.toNat + 1) .outOfBounds := by
  have ⟨_, _, hin, _⟩ := hat
  exact stepAborts_atOpcode hat (n := 0) (by omega) hdecode

theorem stepAborts_of_exec {e : ErrorKind} (hat : AtOpcode s op) (hroom : s.ip.toNat + n ≤ s.cfg.cap)
    (hstep : step s = exec i (s.advance n)) (h : exec i (s.advance n) = .next ((s.advance n).abort e)) :
    StepAborts s (s.ip.toNat + n) e := by
  obtain ⟨hinv, -⟩ := hat
  rw [← ip_add hinv.cap hroom]
  exact ⟨_, hstep.trans h, abortedTo_abort s _ e⟩

theorem stepCompletes_of_exec {P : State → Prop} (hat : AtOpcode s op) (hroom : s.ip.toNat + n ≤ s.cfg.cap)
    (hstep : step s = exec i (s.advance n)) (h : ExecCompletes i (s.advance n) P) :
    StepCompletes s i (s.ip.toNat + n) P := by
  obtain ⟨hinv, -⟩ := hat
  obtain ⟨t, hexec, hretired, hip, hpost⟩ := h
  rw [← ip_add hinv.cap hroom]
  exact ⟨t, hstep.trans hexec, hretired, congrArg BitVec.toNat hip, hpost⟩

/-- A step that ends in one register write. -/
theorem stepCompletes_of_writeReg {x : Reg} {v : Word} (hat : AtOpcode s op) (hroom : s.ip.toNat + n ≤ s.cfg.cap)
    (hstep : step s = exec i (s.advance n))
    (h : exec i (s.advance n) = .next (((s.advance n).writeReg x v).retire i)) :
    StepCompletes s i (s.ip.toNat + n) fun t =>
      t.readReg x = v ∧ OtherRegsSame x s t ∧ SameMemory s t ∧ t.out = s.out := by
  refine stepCompletes_of_exec hat hroom hstep (execCompletes_imp (execCompletes_of_writeReg h) ?_)
  rintro t ⟨hvalue, hother, hmem, hout⟩
  exact ⟨hvalue, fun y hy => (hother y hy).trans (State.readReg_advance s n y), sameMemory_of_mem_eq hmem, hout⟩

theorem stepCompletes_imp {ip : Nat} {P Q : State → Prop} (h : StepCompletes s i ip P) (hPQ : ∀ t, P t → Q t) :
    StepCompletes s i ip Q := by
  obtain ⟨t, hstep, hretired, hip, hpost⟩ := h
  exact ⟨t, hstep, hretired, hip, hPQ t hpost⟩

end

/-! ## The step at each opcode whose operands are there (30_encoding.md R82, R83) -/

section
variable {s : State}

theorem step_atMovToReg (hat : AtOpcode s 0x00#8) (hroom : s.ip.toNat + 4 ≤ s.cfg.cap) :
    step s = exec (.movToReg (s.byteAt (s.ip.toNat + 1))
      (littleEndian (s.byteAt (s.ip.toNat + 2)) (s.byteAt (s.ip.toNat + 3)))) (s.advance 4) := by
  rw [littleEndian_eq_joinBytes]
  exact step_atOpcode hat (n := 3) hroom (decode_movToReg _ _ _)

theorem step_atMovToRam (hat : AtOpcode s 0x01#8) (hroom : s.ip.toNat + 4 ≤ s.cfg.cap) :
    step s = exec (.movToRam (littleEndian (s.byteAt (s.ip.toNat + 1)) (s.byteAt (s.ip.toNat + 2)))
      (s.byteAt (s.ip.toNat + 3))) (s.advance 4) := by
  rw [littleEndian_eq_joinBytes]
  exact step_atOpcode hat (n := 3) hroom (decode_movToRam _ _ _)

theorem step_atMovFromRam (hat : AtOpcode s 0x02#8) (hroom : s.ip.toNat + 4 ≤ s.cfg.cap) :
    step s = exec (.movFromRam (s.byteAt (s.ip.toNat + 1))
      (littleEndian (s.byteAt (s.ip.toNat + 2)) (s.byteAt (s.ip.toNat + 3)))) (s.advance 4) := by
  rw [littleEndian_eq_joinBytes]
  exact step_atOpcode hat (n := 3) hroom (decode_movFromRam _ _ _)

theorem step_atAdd (hat : AtOpcode s 0x04#8) (hroom : s.ip.toNat + 2 ≤ s.cfg.cap) :
    step s = exec (.add (highNibble (s.byteAt (s.ip.toNat + 1))) (lowNibble (s.byteAt (s.ip.toNat + 1)))) (s.advance 2) :=
  step_atOpcode hat (n := 1) hroom (decode_add _)

theorem step_atSub (hat : AtOpcode s 0x05#8) (hroom : s.ip.toNat + 2 ≤ s.cfg.cap) :
    step s = exec (.sub (highNibble (s.byteAt (s.ip.toNat + 1))) (lowNibble (s.byteAt (s.ip.toNat + 1)))) (s.advance 2) :=
  step_atOpcode hat (n := 1) hroom (decode_sub _)

theorem step_atInc (hat : AtOpcode s 0x06#8) (hroom : s.ip.toNat + 2 ≤ s.cfg.cap) :
    step s = exec (.inc (s.byteAt (s.ip.toNat + 1))) (s.advance 2) :=
  step_atOpcode hat (n := 1) hroom (decode_inc _)

theorem step_atDec (hat : AtOpcode s 0x07#8) (hroom : s.ip.toNat + 2 ≤ s.cfg.cap) :
    step s = exec (.dec (s.byteAt (s.ip.toNat + 1))) (s.advance 2) :=
  step_atOpcode hat (n := 1) hroom (decode_dec _)

theorem step_atDumpreg (hat : AtOpcode s 0x03#8) : step s = exec .dumpreg (s.advance 1) := by
  have ⟨_, _, hin, _⟩ := hat
  exact step_atOpcode hat (n := 0) hin decode_dumpreg

theorem step_atRet (hat : AtOpcode s 0x08#8) : step s = exec .ret (s.advance 1) := by
  have ⟨_, _, hin, _⟩ := hat
  exact step_atOpcode hat (n := 0) hin decode_ret

end

/-- The register byte and the word of MovToReg and MovFromRam are cut off. -/
theorem stepAborts_byteWord_cut {s : State} {op : Byte} (hat : AtOpcode s op)
    (hbyte : ∀ r, decode [op, r] = .stop .missingByte []) (hword : ∀ r lo, decode [op, r, lo] = .stop .missingByte [lo])
    (hmore : s.ip.toNat + 1 < s.cfg.cap) (hcut : s.cfg.cap < s.ip.toNat + 4) :
    StepAborts s (s.ip.toNat + 2) .outOfBounds := by
  obtain hend | hend : s.ip.toNat + (1 + 1) = s.cfg.cap ∨ s.ip.toNat + (1 + 2) = s.cfg.cap := by omega
  · exact stepAborts_atOpcode hat hend (hbyte _)
  · exact stepAborts_atOpcode hat hend (hword _ _)

/-- The pair byte of two registers. -/
theorem nibbles_of_pair {p : Byte} {d src : Reg} (h : p.toNat = 16 * (codeOf d).toNat + (codeOf src).toNat) :
    highNibble p = nibbleOf d ∧ lowNibble p = nibbleOf src := by
  have hd : (codeOf d).toNat = (nibbleOf d).toNat := by cases d <;> rfl
  have hsrc : (codeOf src).toNat = (nibbleOf src).toNat := by cases src <;> rfl
  have hlt : (nibbleOf src).toNat < 2 ^ 4 := (nibbleOf src).isLt
  constructor <;> refine BitVec.eq_of_toNat_eq ?_
  · rw [toNat_highNibble]; omega
  · rw [toNat_lowNibble]; omega

end Sys2Proof.Machine

namespace Sys2Proof.Proofs
open Sys2Proof.Machine Sys2Proof.Claims

/-- Settles O18: by what the bytes at IP decode to, then the handler's equations. -/
theorem movToRegStepOutcomes : Obligations.MovToRegStepOutcomes := by
  intro s hat
  refine ⟨stepAborts_lastCell hat rfl, stepAborts_byteWord_cut hat (fun _ => rfl) (fun _ _ => rfl), fun hroom => ?_⟩
  have hstep := step_atMovToReg hat hroom
  refine ⟨fun hbad => ?invalid, fun x imm hx himm => ?completes⟩
  case invalid => exact stepAborts_of_exec hat hroom hstep (exec_of_invalid_code _ hbad _ (.head _))
  case completes =>
    rw [hx, ← himm] at hstep
    exact stepCompletes_of_writeReg hat hroom hstep (exec_movToReg _ x imm)

/-- Settles O19: by what the bytes at IP decode to, then the handler's equations, the register code before the address. -/
theorem movToRamStepOutcomes : Obligations.MovToRamStepOutcomes := by
  intro s hat
  refine ⟨fun hcut => ?word, fun hend => ?register, fun hroom => ?_⟩
  case word =>
    have ⟨_, _, hin, _⟩ := hat
    obtain hend | hend : s.ip.toNat + (1 + 0) = s.cfg.cap ∨ s.ip.toNat + (1 + 1) = s.cfg.cap := by omega
    · exact stepAborts_atOpcode hat hend rfl
    · exact stepAborts_atOpcode hat hend rfl
  case register => exact stepAborts_atOpcode hat (n := 2) hend rfl
  have hstep := step_atMovToRam hat hroom
  refine ⟨fun hbad => ?invalid, fun x addr hx haddr => ?_⟩
  case invalid => exact stepAborts_of_exec hat hroom hstep (exec_of_invalid_code _ hbad _ (.tail _ (.head _)))
  rw [hx, ← haddr] at hstep
  refine ⟨fun hout => ?outside, fun hin => ?completes⟩
  case outside => exact stepAborts_of_exec hat hroom hstep (exec_movToRam_outside _ x addr hout)
  case completes =>
    have ⟨hinv, _⟩ := hat
    refine stepCompletes_of_exec hat hroom hstep (execCompletes_imp (storeCompletes x hinv.mem hin) ?_)
    rintro t ⟨hlow, hhigh, hframe⟩
    rw [hlow, hhigh, State.readReg_advance, toNat_loByte, toNat_hiByte]
    exact ⟨rfl, rfl, hframe⟩

/-- Settles O20: by what the bytes at IP decode to, then the handler's equations, the register code before the address. -/
theorem movFromRamStepOutcomes : Obligations.MovFromRamStepOutcomes := by
  intro s hat
  refine ⟨stepAborts_lastCell hat rfl, stepAborts_byteWord_cut hat (fun _ => rfl) (fun _ _ => rfl), fun hroom => ?_⟩
  have hstep := step_atMovFromRam hat hroom
  refine ⟨fun hbad => ?invalid, fun x addr hx haddr => ?_⟩
  case invalid => exact stepAborts_of_exec hat hroom hstep (exec_of_invalid_code _ hbad _ (.tail _ (.tail _ (.head _))))
  rw [hx, ← haddr] at hstep
  refine ⟨fun hout => ?outside, fun hin => ?completes⟩
  case outside => exact stepAborts_of_exec hat hroom hstep (exec_movFromRam_outside _ x addr hout)
  case completes => exact stepCompletes_of_writeReg hat hroom hstep (exec_movFromRam _ x addr hin)

/-- Settles O21: by what the pair byte's nibbles decode to, then the handlers' equations. -/
theorem addAndSubStepOutcomes : Obligations.AddAndSubStepOutcomes := by
  intro s hat
  refine ⟨fun hend => ?missing, fun hroom => ⟨fun hbad => ?invalid, fun d src hpair => ⟨fun hadd => ?add, fun hsub => ?sub⟩⟩⟩
  case missing => rcases hat with hat | hat <;> exact stepAborts_lastCell hat rfl hend
  case invalid =>
    rw [← toNat_highNibble, ← toNat_lowNibble] at hbad
    have hexec := fun i hi => exec_of_invalid_nibble (s.advance 2) hbad (i := i) hi
    rcases hat with hat | hat
    · exact stepAborts_of_exec hat hroom (step_atAdd hat hroom) (hexec _ (by simp))
    · exact stepAborts_of_exec hat hroom (step_atSub hat hroom) (hexec _ (by simp))
  case add =>
    have hstep := step_atAdd hadd hroom
    obtain ⟨hd, hsrc⟩ := nibbles_of_pair hpair
    rw [hd, hsrc] at hstep
    refine stepCompletes_imp (stepCompletes_of_writeReg hadd hroom hstep (exec_add _ d src)) ?_
    rintro t ⟨hvalue, hframe⟩
    rw [hvalue, State.readReg_advance, State.readReg_advance]
    exact ⟨BitVec.toNat_add _ _, hframe⟩
  case sub =>
    have hstep := step_atSub hsub hroom
    obtain ⟨hd, hsrc⟩ := nibbles_of_pair hpair
    rw [hd, hsrc] at hstep
    refine stepCompletes_imp (stepCompletes_of_writeReg hsub hroom hstep (exec_sub _ d src)) ?_
    rintro t ⟨hvalue, hframe⟩
    rw [hvalue, State.readReg_advance, State.readReg_advance]
    exact ⟨toNat_sub_int _ _, hframe⟩

/-- Settles O22: by what the register byte decodes to, then the handlers' equations. -/
theorem incAndDecStepOutcomes : Obligations.IncAndDecStepOutcomes := by
  intro s hat
  refine ⟨fun hend => ?missing, fun hroom => ⟨fun hbad => ?invalid, fun x hx => ⟨fun hinc => ?inc, fun hdec => ?dec⟩⟩⟩
  case missing => rcases hat with hat | hat <;> exact stepAborts_lastCell hat rfl hend
  case invalid =>
    have hexec := fun i hi => exec_of_invalid_code (s.advance 2) hbad 0#16 (i := i) hi
    rcases hat with hat | hat
    · exact stepAborts_of_exec hat hroom (step_atInc hat hroom) (hexec _ (by simp))
    · exact stepAborts_of_exec hat hroom (step_atDec hat hroom) (hexec _ (by simp))
  case inc =>
    have hstep := step_atInc hinc hroom
    rw [hx] at hstep
    refine stepCompletes_imp (stepCompletes_of_writeReg hinc hroom hstep (exec_inc _ x)) ?_
    rintro t ⟨hvalue, hframe⟩
    rw [hvalue, State.readReg_advance]
    exact ⟨BitVec.toNat_add _ _, hframe⟩
  case dec =>
    have hstep := step_atDec hdec hroom
    rw [hx] at hstep
    refine stepCompletes_imp (stepCompletes_of_writeReg hdec hroom hstep (exec_dec _ x)) ?_
    rintro t ⟨hvalue, hframe⟩
    rw [hvalue, State.readReg_advance]
    exact ⟨toNat_sub_int _ _, hframe⟩

/-- Settles O23: neither instruction has an operand or a check. -/
theorem dumpregAndRetStepOutcomes : Obligations.DumpregAndRetStepOutcomes := by
  refine ⟨fun s hat => ?dumpreg, fun s hat => ?ret⟩
  case dumpreg =>
    have ⟨hinv, _, hin, _⟩ := hat
    have hip := ip_succ hinv.cap hin
    exact ⟨_, (step_atDumpreg hat).trans (exec_dumpreg _), rfl, hip, ⟨_, rfl, rfl, rfl, hip⟩, rfl, rfl,
      sameMemory_of_mem_eq rfl⟩
  case ret => exact ⟨_, (step_atRet hat).trans (exec_ret _), rfl⟩

end Sys2Proof.Proofs
end

section
/-! Proofs of the family 20_memory.md: reads after writes of either width (R58, R68) and the canonical form (log 5). -/

namespace Sys2Proof.Machine
open Sys2Proof.Claims

/-! ## Reads that answer alike -/

theorem Memory.readByte_congr (cap : Nat) {m m' : Memory} {a : Nat} (h : Memory.get m' a = Memory.get m a) :
    Memory.readByte cap m' a = Memory.readByte cap m a := by
  rw [Memory.readByte, Memory.readByte, h]

/-! ## The canonical form -/

/-- In a canonical memory the listed cells are those that do not read as blank, each with the byte it reads as. -/
theorem Memory.mem_iff_get {m : Memory} (h : Memory.wf m) (c : Host.Cell) :
    c ∈ m ↔ Memory.get m c.1 = c.2 ∧ c.2 ≠ Memory.blank := by
  constructor
  · intro hc
    have ⟨_, hblank⟩ := h
    exact ⟨Memory.get_of_mem h hc, hblank c hc⟩
  · rintro ⟨hget, hne⟩
    have hlisted : (c.1, Memory.get m c.1) ∈ m := Memory.mem_of_get (hget ▸ hne)
    rwa [hget] at hlisted

/-- Lists of cells by strictly rising address with the same members are equal. -/
theorem Memory.eq_of_same_cells {m m' : Memory} (h : Memory.wf m) (h' : Memory.wf m') (hcells : ∀ c, c ∈ m ↔ c ∈ m') :
    m = m' := by
  have hirrefl : Std.Irrefl fun x y : Host.Cell => x.1 < y.1 := ⟨fun x => Nat.lt_irrefl x.1⟩
  have hantisymm : Std.Antisymm fun x y : Host.Cell => x.1 < y.1 := ⟨fun _ _ hxy hyx => absurd hyx (Nat.lt_asymm hxy)⟩
  obtain ⟨hrising, -⟩ := h
  obtain ⟨hrising', -⟩ := h'
  exact hrising.eq_of_mem_iff hrising' hcells

theorem Memory.eq_of_get_eq {m m' : Memory} (h : Memory.wf m) (h' : Memory.wf m')
    (hget : ∀ a, Memory.get m a = Memory.get m' a) : m = m' :=
  Memory.eq_of_same_cells h h' fun c => by rw [Memory.mem_iff_get h, Memory.mem_iff_get h', hget]

end Sys2Proof.Machine

namespace Sys2Proof.Proofs
open Sys2Proof.Machine Sys2Proof.Claims

/-- Settles O10: by what each cell reads as after the write. -/
theorem readAfterWriteLaws : Obligations.ReadAfterWriteLaws := by
  refine ⟨fun cap m m' addr w hwf hwrite => ?word, fun cap m m' addr v hwf hwrite => ?byte⟩
  case word =>
    obtain ⟨hin, rfl⟩ := Memory.writeWord_eq_ok.1 hwrite
    refine ⟨Memory.readWord_eq_ok.2 ⟨hin, ?_⟩, fun a ha => Memory.readByte_congr cap (Memory.get_putBytes_ne m _ ha)⟩
    rw [Memory.get_putWord_low hwf, Memory.get_putWord_high hwf, joinBytes_lo_hi]
  case byte =>
    obtain ⟨hin, rfl⟩ := Memory.writeByte_eq_ok.1 hwrite
    exact ⟨Memory.readByte_eq_ok.2 ⟨hin, (Memory.get_put_self hwf addr v).symm⟩,
      fun a ha => Memory.readByte_congr cap (Memory.get_put_ne m v ha.symm)⟩

/-- Settles O11: by what each cell reads as after a word write, or after two byte writes. -/
theorem mixedWidthAccessSeesTheCells : Obligations.MixedWidthAccessSeesTheCells := by
  refine ⟨fun cap m m' a v hwf hwrite => ?word, fun cap m m1 m2 a lo hi hwf hlo hhi => ?bytes⟩
  case word =>
    obtain ⟨hin, rfl⟩ := Memory.writeWord_eq_ok.1 hwrite
    have hlow := Memory.get_putWord_low hwf a v
    have hhigh := Memory.get_putWord_high hwf a v
    refine ⟨Memory.readByte_eq_ok.2 ⟨by omega, hlow.symm⟩, Memory.readByte_eq_ok.2 ⟨hin, hhigh.symm⟩, fun hnext => ?_⟩
    have hafter := Memory.get_putWord_ne m (a := a) (b := a + 2) v (by omega) (by omega)
    exact Memory.readWord_eq_ok.2 ⟨hnext, by rw [littleEndian_eq_joinBytes, hhigh, hafter]⟩
  case bytes =>
    obtain ⟨-, rfl⟩ := Memory.writeByte_eq_ok.1 hlo
    obtain ⟨hin, rfl⟩ := Memory.writeByte_eq_ok.1 hhi
    have hwf1 := Memory.put_wf hwf a lo
    refine Memory.readWord_eq_ok.2 ⟨hin, ?_⟩
    rw [littleEndian_eq_joinBytes, Memory.get_put_self hwf1, Memory.get_put_ne _ hi (Nat.succ_ne_self a),
      Memory.get_put_self hwf]

/-- Settles O13: reading decides which cells a canonical memory lists, and their addresses rise strictly. -/
theorem canonicalMemoriesThatReadAlikeAreEqual : Obligations.CanonicalMemoriesThatReadAlikeAreEqual :=
  fun _ _ h h' hget => Memory.eq_of_get_eq h h' hget

end Sys2Proof.Proofs
end

section
/-! Proofs about every step of the machine: the invariant (10_state.md sections 4, 5 and 8), configuration and streams
(10_state.md sections 1 and 5), one status per command, precise errors (60_exceptions.md section 3), termination of a run
(40_fde_loop.md section 4). Each is one pass over the cases of a handler, of a command and of a step. -/

namespace Sys2Proof.Machine
open Sys2Proof.Claims

/-! ## What the invariant reads -/

section
variable {s : State}

/-- The invariant does not read registers, ICOUNT, streams or the host side. -/
theorem State.Inv.congr {t : State} (h : s.Inv) (hcfg : t.cfg = s.cfg) (hmem : t.mem = s.mem) (hip : t.ip = s.ip)
    (hrun : t.runState ≠ .halted) : t.Inv := by
  obtain ⟨hcap, hwf, hwithin, hle, -⟩ := h
  exact ⟨hcfg ▸ hcap, hmem ▸ hwf, by rwa [hcfg, hmem], by rwa [hcfg, hip], hrun⟩

theorem State.Inv.with_mem (h : s.Inv) {m : Memory} (hm : Memory.wf m ∧ Memory.within s.cfg.cap m) :
    State.Inv { s with mem := m } :=
  ⟨h.cap, hm.1, hm.2, h.ip, h.run⟩

theorem State.Inv.with_ip (h : s.Inv) {ip : Word} (hip : ip.toNat ≤ s.cfg.cap) : State.Inv { s with ip := ip } :=
  ⟨h.cap, h.mem, h.within, hip, h.run⟩

theorem State.Inv.abort (h : s.Inv) (e : ErrorKind) : (s.abort e).Inv := h.congr rfl rfl rfl (by simp)

theorem exitHalted_inv (hcap : s.cfg.WF) (hmem : Memory.wf s.mem) (hwithin : Memory.within s.cfg.cap s.mem) :
    s.exitHalted.Inv :=
  ⟨hcap, hmem, hwithin, Nat.zero_le _, by simp⟩

theorem State.Inv.fetchInstr_source (h : s.Inv) : s.fetchInstr.source.Inv := by
  obtain ⟨ip, hsource, -, hle⟩ := Machine.fetchInstr_source h.cap h.ip
  rw [hsource]
  exact h.with_ip hle

/-! ## The invariant is kept -/

theorem ExecCase.inv {i : Instr} {t : State} (h : ExecCase i s t) (hinv : s.Inv) : t.Inv := by
  cases h with
  | aborted e he => exact hinv.abort e
  | wroteReg r v => exact hinv.congr rfl rfl rfl hinv.run
  | stored addr v m hm => exact (hinv.with_mem (Memory.writeWord_keeps hm hinv.mem hinv.within)).congr rfl rfl rfl hinv.run
  | dumped hi => exact hinv.congr rfl rfl rfl hinv.run
  | halted hi => exact exitHalted_inv hinv.cap hinv.mem hinv.within

theorem PerformCase.inv {c : Command} {t : State} (h : PerformCase s c t) (hinv : s.Inv) : t.Inv := by
  cases h with
  | started hc => exact ⟨hinv.cap, hinv.mem, hinv.within, Nat.zero_le _, by simp⟩
  | reset hc => exact ⟨hinv.cap, Memory.clear_wf, Memory.clear_within _, Nat.zero_le _, by simp⟩
  | kept st v hst => exact hinv.congr rfl rfl rfl hinv.run
  | loaded source hc f n st hst =>
    exact ⟨hinv.cap, Memory.ofCells_wf _ f, Memory.ofCells_within _ f, Nat.zero_le _, by simp⟩
  | encoded i hroom =>
    have hlength : (encode i).length = i.length := length_encode i
    have hmem := hinv.with_mem
      ⟨Memory.putBytes_wf hinv.mem s.ip.toNat (encode i), Memory.putBytes_within hinv.within (hlength ▸ hroom)⟩
    exact (hmem.with_ip ((ip_add hinv.cap hroom).trans_le hroom)).congr rfl rfl rfl hinv.run
  | wroteReg x w => exact hinv.congr rfl rfl rfl hinv.run
  | wroteByte m a v hm => exact (hinv.with_mem (Memory.writeByte_keeps hm hinv.mem hinv.within)).congr rfl rfl rfl hinv.run
  | wroteWord m a v hm => exact (hinv.with_mem (Memory.writeWord_keeps hm hinv.mem hinv.within)).congr rfl rfl rfl hinv.run

theorem State.Inv.serveHost (h : s.Inv) : s.serveHost.Inv := by
  rcases serveHost_cases s with ⟨-, hwait⟩ | ⟨c, rest, -, hperform⟩
  · rwa [hwait]
  · rw [hperform]
    exact (perform_cases { s with commands := rest } c).inv (h.congr rfl rfl rfl h.run)

theorem StepCase.inv {t : State} (h : StepCase s t) (hinv : s.Inv) : t.Inv := by
  have hsource := hinv.fetchInstr_source
  cases h with
  | served hidle => exact hinv.serveHost
  | executed hrun i u _ hf he => rw [hf] at hsource; exact (exec_inv he).inv hsource
  | stopped hrun e u hf => rw [hf] at hsource; exact State.Inv.abort hsource _
  | leftHalted hhalted => exact exitHalted_inv hinv.cap hinv.mem hinv.within

end

theorem stepCase_of_step {s t : State} (h : step s = .next t) : StepCase s t := by
  obtain ⟨-, hcase⟩ := step_inv h
  exact hcase

theorem powerOn_inv {cfg : Config} (h : cfg.WF) : (State.powerOn cfg).Inv :=
  ⟨h, Memory.clear_wf, Memory.clear_within _, Nat.zero_le _, nofun⟩

/-! ## Configuration and streams -/

/-- `t` has the configuration of `s` and its streams and replies extended at the end, or as they are. -/
structure Grows (s t : State) : Prop where
  cfg : t.cfg = s.cfg
  out : s.out <+: t.out
  trace : s.trace <+: t.trace
  replies : s.replies <+: t.replies

theorem Grows.refl (s : State) : Grows s s := ⟨rfl, List.prefix_rfl, List.prefix_rfl, List.prefix_rfl⟩

theorem Grows.trans {s t u : State} (hst : Grows s t) (htu : Grows t u) : Grows s u :=
  ⟨htu.cfg.trans hst.cfg, hst.out.trans htu.out, hst.trace.trans htu.trace, hst.replies.trans htu.replies⟩

theorem Grows.of_streams_eq {s t : State} (hcfg : t.cfg = s.cfg) (hout : t.out = s.out) (htrace : t.trace = s.trace)
    (hreplies : t.replies = s.replies) : Grows s t :=
  ⟨hcfg, hout ▸ List.prefix_rfl, htrace ▸ List.prefix_rfl, hreplies ▸ List.prefix_rfl⟩

theorem Grows.of_one_reply {s t : State} {r : Reply} (hcfg : t.cfg = s.cfg) (hout : t.out = s.out)
    (htrace : t.trace = s.trace) (hreplies : t.replies = s.replies ++ [r]) : Grows s t :=
  ⟨hcfg, hout ▸ List.prefix_rfl, htrace ▸ List.prefix_rfl, hreplies ▸ List.prefix_append _ _⟩

theorem grows_emitOut (s : State) : Grows s s.emitOut :=
  ⟨rfl, List.prefix_append _ _, List.prefix_rfl, List.prefix_rfl⟩

theorem Grows.retire {s u : State} (h : Grows s u) (i : Instr) : Grows s (u.retire i) := by
  refine h.trans ⟨rfl, List.prefix_rfl, ?_, List.prefix_rfl⟩
  rw [State.retire_trace]
  cases u.cfg.dbgEn
  · exact List.prefix_rfl
  · exact List.prefix_append _ _

theorem ExecCase.grows {i : Instr} {s t : State} (h : ExecCase i s t) : Grows s t := by
  cases h with
  | aborted e he => exact .of_one_reply rfl rfl rfl rfl
  | wroteReg r v => exact Grows.retire (s := s) (u := s.writeReg r v) (.of_streams_eq rfl rfl rfl rfl) i
  | stored addr v m hm => exact Grows.retire (s := s) (u := { s with mem := m }) (.of_streams_eq rfl rfl rfl rfl) i
  | dumped hi => exact (grows_emitOut s).retire i
  | halted hi => exact ((Grows.refl s).retire i).trans (.of_one_reply rfl rfl rfl rfl)

theorem PerformCase.grows {c : Command} {s t : State} (h : PerformCase s c t) : Grows s t := by
  cases h with
  | started hc => exact .of_streams_eq rfl rfl rfl rfl
  | reset hc => exact .of_one_reply rfl rfl rfl rfl
  | kept st v hst => exact .of_one_reply rfl rfl rfl rfl
  | loaded source hc f n st hst => exact .of_one_reply rfl rfl rfl rfl
  | encoded i hroom => exact .of_one_reply rfl rfl rfl rfl
  | wroteReg x w => exact .of_one_reply rfl rfl rfl rfl
  | wroteByte m a v hm => exact .of_one_reply rfl rfl rfl rfl
  | wroteWord m a v hm => exact .of_one_reply rfl rfl rfl rfl

theorem grows_serveHost (s : State) : Grows s s.serveHost := by
  rcases serveHost_cases s with ⟨-, hwait⟩ | ⟨c, rest, -, hperform⟩
  · rw [hwait]; exact .refl s
  · rw [hperform]
    have haccepted : Grows s { s with commands := rest } := .of_streams_eq rfl rfl rfl rfl
    exact haccepted.trans (perform_cases _ c).grows

theorem grows_fetchInstr_source (s : State) : Grows s s.fetchInstr.source := by
  obtain ⟨ip, hsource⟩ := fetchInstr_moves_ip_only s
  rw [hsource]
  exact .of_streams_eq rfl rfl rfl rfl

theorem StepCase.grows {s t : State} (h : StepCase s t) : Grows s t := by
  have hsource := grows_fetchInstr_source s
  cases h with
  | served hidle => exact grows_serveHost s
  | executed hrun i u _ hf he => rw [hf] at hsource; exact hsource.trans (exec_inv he).grows
  | stopped hrun e u hf => rw [hf] at hsource; exact hsource.trans (.of_one_reply rfl rfl rfl rfl)
  | leftHalted hhalted => exact .of_one_reply rfl rfl rfl rfl

/-! ## One status per command (10_state.md R31) -/

/-- The run goes on without a reply, or the core is idle with one reply more. -/
def OneStatus (s t : State) : Prop :=
  (t.runState = .running ∧ t.replies = s.replies) ∨ (t.runState = .idle ∧ ∃ r, t.replies = s.replies ++ [r])

theorem oneStatus_finishRun (s : State) (st : Status) : OneStatus s (s.finishRun st) := .inr ⟨rfl, _, rfl⟩

theorem ExecCase.oneStatus {i : Instr} {s t : State} (h : ExecCase i s t) (hrun : s.runState = .running) :
    OneStatus s t := by
  cases h with
  | aborted e he => exact oneStatus_finishRun s _
  | wroteReg r v => exact .inl ⟨hrun, rfl⟩
  | stored addr v m hm => exact .inl ⟨hrun, rfl⟩
  | dumped hi => exact .inl ⟨hrun, rfl⟩
  | halted hi => exact .inr ⟨rfl, _, rfl⟩

theorem PerformCase.oneStatus {c : Command} {s t : State} (h : PerformCase s c t) (hidle : s.runState = .idle) :
    OneStatus s t := by
  cases h with
  | started hc => exact .inl ⟨rfl, rfl⟩
  | reset hc => exact .inr ⟨rfl, _, rfl⟩
  | kept st v hst => exact .inr ⟨hidle, _, rfl⟩
  | loaded source hc f n st hst => exact .inr ⟨rfl, _, rfl⟩
  | encoded i hroom => exact .inr ⟨hidle, _, rfl⟩
  | wroteReg x w => exact .inr ⟨hidle, _, rfl⟩
  | wroteByte m a v hm => exact .inr ⟨hidle, _, rfl⟩
  | wroteWord m a v hm => exact .inr ⟨hidle, _, rfl⟩

/-- A step of a run ends it with one reply or goes on without one. -/
theorem StepCase.oneStatus {s t : State} (h : StepCase s t) (hrun : s.runState = .running) : OneStatus s t := by
  obtain ⟨ip, hsource⟩ := fetchInstr_moves_ip_only s
  cases h with
  | served hidle => rw [hrun] at hidle; cases hidle
  | executed _ i u _ hf he =>
    rw [hf] at hsource
    obtain rfl : u = { s with ip := ip } := hsource
    exact (exec_inv he).oneStatus hrun
  | stopped _ e u hf =>
    rw [hf] at hsource
    obtain rfl : u = { s with ip := ip } := hsource
    exact oneStatus_finishRun s _
  | leftHalted hhalted => rw [hrun] at hhalted; cases hhalted

/-! ## Precise errors (60_exceptions.md section 3) -/

/-- A handler that replies an error has changed nothing else than an abort does. -/
theorem ExecCase.eq_abort_of_replies {i : Instr} {s t : State} {e : ErrorKind} {v : Value} (h : ExecCase i s t)
    (hr : t.replies = s.replies ++ [⟨.failed e, v⟩]) : t = s.abort e := by
  cases h with
  | aborted k hk =>
    obtain ⟨rfl, -⟩ : k = e ∧ .nothing = v := by simpa using hr
    rfl
  | wroteReg r w => simp at hr
  | stored addr w m hm => simp at hr
  | dumped hi => simp at hr
  | halted hi => simp at hr

/-- A step of a run that replies an error is the abort of the state its fetch leaves. -/
theorem StepCase.eq_abort_of_replies {s t : State} {e : ErrorKind} {v : Value} (h : StepCase s t)
    (hrun : s.runState = .running) (hr : t.replies = s.replies ++ [⟨.failed e, v⟩]) :
    t = s.fetchInstr.source.abort e ∧ e ∈ [ErrorKind.outOfBounds, .invalidRegister, .unknownOpcode] := by
  have hsource := fetchInstr_source_replies s
  cases h with
  | served hidle => rw [hrun] at hidle; cases hidle
  | executed _ i u _ hf he =>
    rw [hf] at hsource ⊢
    have hkind := (exec_inv he).error_of_replies (hsource ▸ hr)
    exact ⟨(exec_inv he).eq_abort_of_replies (hsource ▸ hr), by rcases hkind with rfl | rfl <;> simp⟩
  | stopped _ k u hf =>
    rw [hf] at hsource ⊢
    obtain ⟨rfl, -⟩ : decodeErrorKind k = e ∧ .nothing = v := by
      simpa [show u.replies = s.replies from hsource] using hr
    exact ⟨rfl, by cases k <;> simp [decodeErrorKind]⟩
  | leftHalted hhalted => rw [hrun] at hhalted; cases hhalted

/-! ## Every run ends (40_fde_loop.md section 4) -/

/-- A step after which the run is still in progress has moved IP. -/
theorem StepCase.ip_lt_of_running {s t : State} (h : StepCase s t) (hinv : s.Inv) (hrun : s.runState = .running)
    (hgoes : t.runState = .running) : s.ip.toNat < t.ip.toNat := by
  cases h with
  | served hidle => rw [hrun] at hidle; cases hidle
  | executed _ i u _ hf he =>
    have hdecode : decode s.bytesAtIp = .instr i u.bytesAtIp := by rw [decode_bytesAtIp s hinv.cap, hf]; rfl
    obtain ⟨w, hw, hip⟩ := fetchInstr_of_decode hinv.cap hinv.ip hdecode
    obtain rfl : u = w := by rw [hf] at hw; cases hw; rfl
    rw [(exec_inv he).ip_of_running hgoes, hip]
    exact Nat.lt_add_of_pos_right (by cases i <;> simp [encode])
  | stopped _ e u hf => cases hgoes
  | leftHalted hhalted => cases hgoes

/-- The cells from IP to the end of memory. -/
def State.cellsAhead (s : State) : Nat := s.cfg.cap - s.ip.toNat

theorem StepCase.cellsAhead_lt {s t : State} (h : StepCase s t) (hinv : s.Inv) (hrun : s.runState = .running)
    (hgoes : t.runState = .running) : t.cellsAhead < s.cellsAhead := by
  have hmoved := h.ip_lt_of_running hinv hrun hgoes
  have hinside := (h.inv hinv).ip
  rw [h.grows.cfg] at hinside
  rw [State.cellsAhead, State.cellsAhead, h.grows.cfg]
  omega

theorem runFor_succ {s t : State} (h : step s = .next t) (k : Nat) : s.runFor (k + 1) = t.runFor k := by
  have hstep : core.step s = .next t := h
  simp only [State.runFor, Host.Core.run, hstep]
  rfl

/-- A run that is still in progress after `n` steps has used up `n` cells. -/
theorem length_of_run {s : State} (hinv : s.Inv) (n : Nat)
    (h : ∀ k, k ≤ n → ∃ u, s.runFor k = .next u ∧ u.runState = .running) : n ≤ s.cellsAhead := by
  induction n generalizing s with
  | zero => exact Nat.zero_le _
  | succ n ih =>
    obtain ⟨_, hzero, hrun⟩ := h 0 (Nat.zero_le _)
    cases hzero
    obtain ⟨t, hstep⟩ := step_total hinv.cap
    have hcase := stepCase_of_step hstep
    have hrest : ∀ k, k ≤ n → ∃ u, t.runFor k = .next u ∧ u.runState = .running := fun k hk => by
      rw [← runFor_succ hstep]
      exact h (k + 1) (Nat.succ_le_succ hk)
    obtain ⟨_, hone, hgoes⟩ := hrest 0 (Nat.zero_le _)
    cases hone
    exact (ih (hcase.inv hinv) hrest).trans_lt (hcase.cellsAhead_lt hinv hrun hgoes)

/-- Each step of a run ends it or uses up a cell, so that the run ends within the cells ahead and one step. -/
theorem run_ends {s : State} (hinv : s.Inv) (hrun : s.runState = .running) :
    ∃ k t, k ≤ s.cellsAhead + 1 ∧ s.runFor k = .next t ∧ t.runState = .idle ∧ ∃ r, t.replies = s.replies ++ [r] := by
  induction hcells : s.cellsAhead using Nat.strong_induction_on generalizing s with
  | _ n ih =>
    obtain ⟨t, hstep⟩ := step_total hinv.cap
    have hcase := stepCase_of_step hstep
    rcases hcase.oneStatus hrun with ⟨hgoes, hreplies⟩ | ⟨hidle, hreply⟩
    · have hlt := hcells ▸ hcase.cellsAhead_lt hinv hrun hgoes
      obtain ⟨k, u, hk, hu, hidle, hreply⟩ := ih _ hlt (hcase.inv hinv) hgoes rfl
      exact ⟨k + 1, u, by omega, (runFor_succ hstep k).trans hu, hidle, hreplies ▸ hreply⟩
    · exact ⟨1, t, Nat.le_add_left 1 n, runFor_succ hstep 0, hidle, hreply⟩

/-! ## What the next fetch sees (20_memory.md section 7) -/

theorem bytesAtIp_eq_word {s : State} (h : s.ip.toNat + 2 ≤ s.cfg.cap) :
    ∃ rest, s.bytesAtIp = s.byteAt s.ip.toNat :: s.byteAt (s.ip.toNat + 1) :: rest :=
  bytesAtIp_eq_cells_append h

end Sys2Proof.Machine

namespace Sys2Proof.Proofs
open Sys2Proof.Machine Sys2Proof.Claims

/-- Settles O34: each case of a step keeps each part of the invariant. -/
theorem everyStepKeepsTheInvariant : Obligations.EveryStepKeepsTheInvariant :=
  fun _ _ hinv hstep => (stepCase_of_step hstep).inv hinv

/-- Settles O43: the cells from IP to the end of memory bound the steps of a run. -/
theorem everyRunEndsWithinCapacity : Obligations.EveryRunEndsWithinCapacity :=
  fun _ hinv hrun => ⟨run_ends hinv hrun, length_of_run hinv⟩

/-- Settles O35: reset is power-on of the default configuration, with an empty memory and IP = 0. -/
theorem resetMeetsTheInvariant : Obligations.ResetMeetsTheInvariant :=
  ⟨powerOn_inv (by decide), fun _ h => powerOn_inv h⟩

/-- Settles O36: reset writes every field out. -/
theorem resetLeavesTheStatedValues : Obligations.ResetLeavesTheStatedValues :=
  ⟨Memory.get_nil, rfl, rfl, rfl, rfl, rfl, rfl, rfl, rfl, rfl⟩

/-- Settles O37: a step checks CAP and each of its branches then answers a next state. -/
theorem noStepStopsTheMachine : Obligations.NoStepStopsTheMachine :=
  fun _ => ⟨fun hcap => step_total hcap, fun hcap => step_capacity hcap⟩

/-- Settles O38: no case of a step touches the configuration. -/
theorem noStepChangesTheConfiguration : Obligations.NoStepChangesTheConfiguration :=
  fun _ _ hstep => (stepCase_of_step hstep).grows.cfg

/-- Settles O39: every case of a step leaves a stream as it is or appends to it. -/
theorem streamsOnlyGrow : Obligations.StreamsOnlyGrow := by
  intro s t hstep
  have hcase := stepCase_of_step hstep
  exact ⟨hcase.grows.out, hcase.grows.trace, hcase.grows.replies⟩

/-- Settles O40: by the cases of a handler in a run, and of a command in the idle core. -/
theorem everyCommandCompletesWithOneStatus : Obligations.EveryCommandCompletesWithOneStatus := by
  intro s t hinv hstep
  cases hrun : s.runState with
  | halted => exact absurd hrun hinv.run
  | running => exact ((stepCase_of_step hstep).oneStatus hrun).imp_right .inl
  | idle =>
    rw [step_idle hinv.cap hrun] at hstep
    cases hstep
    rcases serveHost_cases s with ⟨hnone, hwait⟩ | ⟨c, rest, -, hperform⟩
    · exact .inr (.inr ⟨rfl, hnone, hwait⟩)
    · rw [hperform]
      exact ((perform_cases { s with commands := rest } c).oneStatus hrun).imp_right .inl

/-- Settles O41: the step is the abort of the state that its fetch leaves, which differs from the first in IP alone. -/
theorem errorsInARunArePrecise : Obligations.ErrorsInARunArePrecise := by
  intro s t e v hinv hrun hstep hreplies
  obtain ⟨rfl, hkind⟩ := (stepCase_of_step hstep).eq_abort_of_replies hrun hreplies
  obtain ⟨ip, hsource, hforward, -⟩ := fetchInstr_source hinv.cap hinv.ip
  rw [hsource]
  exact ⟨rfl, rfl, sameMemory_of_mem_eq rfl, ⟨rfl, rfl⟩, rfl, hkind, hforward⟩

/-- Settles O45: the two cells at IP hold the stored word. -/
theorem storeIsSeenByTheNextFetch : Obligations.StoreIsSeenByTheNextFetch := by
  intro s t x addr hinv haddr hin hexec
  obtain ⟨u, hu, -, hip, hlow, hhigh, -⟩ := storeCompletes x hinv.mem hin
  obtain rfl : t = u := by rw [hexec] at hu; cases hu; rfl
  have hcfg := (exec_inv hexec).grows.cfg
  obtain ⟨rest, hbytes⟩ := bytesAtIp_eq_word (s := t) (by rw [hip, hcfg, ← haddr]; exact hin)
  rw [hip, ← haddr, hlow, hhigh] at hbytes
  exact ⟨rest, hbytes⟩

end Sys2Proof.Proofs
end

section
/-! Proof that the tracer feeds back into nothing (60_exceptions.md section 6): every operation commutes with switching the
tracer off and emptying its stream, retirement up to that stream. -/

namespace Sys2Proof.Machine
open Sys2Proof.Claims

section
variable (s : State)

@[simp] theorem withoutTracer_idem : withoutTracer (withoutTracer s) = withoutTracer s := rfl

@[simp] theorem withoutTracer_cap : (withoutTracer s).cfg.cap = s.cfg.cap := rfl
@[simp] theorem withoutTracer_mem : (withoutTracer s).mem = s.mem := rfl
@[simp] theorem withoutTracer_ip : (withoutTracer s).ip = s.ip := rfl
@[simp] theorem withoutTracer_commands : (withoutTracer s).commands = s.commands := rfl

@[simp] theorem readReg_withoutTracer (x : Reg) : (withoutTracer s).readReg x = s.readReg x := by
  cases x <;> rfl

/-! ## Fetch -/

theorem fetchByte_withoutTracer :
    (withoutTracer s).fetchByte = s.fetchByte.map fun p => (p.1, withoutTracer p.2) := by
  rw [State.fetchByte, State.fetchByte, withoutTracer_cap, withoutTracer_mem, withoutTracer_ip]
  cases Memory.readByte s.cfg.cap s.mem s.ip.toNat <;> rfl

theorem fetchWord_withoutTracer :
    (withoutTracer s).fetchWord = s.fetchWord.map fun p => (p.1, withoutTracer p.2) := by
  rw [State.fetchWord, State.fetchWord, withoutTracer_cap, withoutTracer_mem, withoutTracer_ip]
  cases Memory.readWord s.cfg.cap s.mem s.ip.toNat <;> rfl

theorem fetchInstr_withoutTracer : (withoutTracer s).fetchInstr = s.fetchInstr.map withoutTracer :=
  decodeWith_map (P := fun _ => True) (fun t _ => fetchByte_withoutTracer t) (fun _ _ _ _ _ => trivial)
    (fun t _ => fetchWord_withoutTracer t) (fun _ _ _ _ _ => trivial) trivial

/-! ## Handlers -/

/-- A chain of checks whose every end commutes with `withoutTracer` commutes with it. -/
theorem bind_map_withoutTracer {α : Type} (r : Except ErrorKind α) {f g : α → Except ErrorKind State}
    (h : ∀ a, g a = (f a).map withoutTracer) : r >>= g = (r >>= f).map withoutTracer := by
  cases r with
  | ok a => exact h a
  | error e => rfl

theorem pairOp_withoutTracer (f : Word → Word → Word) (d src : BitVec 4) :
    (withoutTracer s).pairOp f d src = (s.pairOp f d src).map withoutTracer :=
  bind_map_withoutTracer _ fun _ => bind_map_withoutTracer _ fun _ => by simp only [readReg_withoutTracer]; rfl

theorem regOp_withoutTracer (f : Word → Word) (r : Byte) :
    (withoutTracer s).regOp f r = (s.regOp f r).map withoutTracer :=
  bind_map_withoutTracer _ fun _ => by simp only [readReg_withoutTracer]; rfl

/-- Retirement reads DBG_EN and writes TRACE, and an abort neither. -/
theorem conclude_withoutTracer (i : Instr) (r : Except ErrorKind State) {t : State} (h : s.conclude i r = .next t) :
    ∃ u, (withoutTracer s).conclude i (r.map withoutTracer) = .next u ∧ withoutTracer u = withoutTracer t := by
  rcases conclude_cases h with ⟨u, rfl, rfl⟩ | ⟨e, rfl, rfl⟩
  · exact ⟨_, rfl, rfl⟩
  · exact ⟨_, rfl, rfl⟩

theorem exec_withoutTracer (i : Instr) {t : State} (h : exec i s = .next t) :
    ∃ u, exec i (withoutTracer s) = .next u ∧ withoutTracer u = withoutTracer t := by
  have concluded : ∀ r r', r' = r.map withoutTracer → s.conclude i r = .next t →
      ∃ u, (withoutTracer s).conclude i r' = .next u ∧ withoutTracer u = withoutTracer t := by
    rintro r _ rfl h
    exact conclude_withoutTracer s i r h
  cases i with
  | movToReg r imm => exact concluded _ _ (bind_map_withoutTracer _ fun _ => rfl) h
  | movToRam addr r =>
    refine concluded _ _ (bind_map_withoutTracer _ fun _ => ?_) h
    rw [readReg_withoutTracer]
    exact bind_map_withoutTracer _ fun _ => rfl
  | movFromRam r addr =>
    exact concluded _ _ (bind_map_withoutTracer _ fun _ => bind_map_withoutTracer _ fun _ => rfl) h
  | dumpreg => exact concluded (.ok s.emitOut) _ rfl h
  | add d src => exact concluded _ _ (pairOp_withoutTracer s aluAdd d src) h
  | sub d src => exact concluded _ _ (pairOp_withoutTracer s aluSub d src) h
  | inc r => exact concluded _ _ (regOp_withoutTracer s aluInc r) h
  | dec r => exact concluded _ _ (regOp_withoutTracer s aluDec r) h
  | ret => cases h; exact ⟨_, rfl, rfl⟩

/-! ## Host commands, which emit no trace record -/

theorem encoderWrite_withoutTracer (codes : List Byte) (i : Instr) :
    (withoutTracer s).encoderWrite codes i = withoutTracer (s.encoderWrite codes i) := by
  by_cases hvalid : AllValid codes
  · by_cases hroom : s.ip.toNat + i.length ≤ s.cfg.cap
    · rw [encoderWrite_of_room hvalid hroom]
      exact encoderWrite_of_room hvalid hroom
    · rw [encoderWrite_of_no_room hvalid (Nat.lt_of_not_le hroom)]
      exact encoderWrite_of_no_room (s := withoutTracer s) hvalid (Nat.lt_of_not_le hroom)
  · rw [encoderWrite_of_invalid hvalid, encoderWrite_of_invalid hvalid]
    rfl

theorem cmdLoad_withoutTracer (source : List Byte) :
    cmdLoad source (withoutTracer s) = withoutTracer (cmdLoad source s) := by
  by_cases hfull : s.cfg.cap ≤ source.length
  · rw [cmdLoad_full hfull]
    exact cmdLoad_full (s := withoutTracer s) hfull
  · rw [cmdLoad_short (Nat.lt_of_not_le hfull)]
    exact cmdLoad_short (s := withoutTracer s) (Nat.lt_of_not_le hfull)

/-- A port operation that checks its code or address and then answers. -/
theorem port_withoutTracer {α : Type} (r : Except ErrorKind α) {f g : α → State × Value}
    (h : ∀ a, g a = (withoutTracer (f a).1, (f a).2)) :
    (withoutTracer s).port (r >>= fun a => pure (g a)) = withoutTracer (s.port (r >>= fun a => pure (f a))) := by
  cases r with
  | ok a =>
    show (withoutTracer s).port (.ok (g a)) = _
    rw [h]
    rfl
  | error e => rfl

/-- The register port's increment and decrement. -/
theorem port_regOp_withoutTracer (f : Word → Word) (code : Byte) :
    ((withoutTracer s).port do let t ← (withoutTracer s).regOp f code; return (t, .nothing)) =
      withoutTracer (s.port do let t ← s.regOp f code; return (t, .nothing)) := by
  rw [regOp_withoutTracer]
  cases s.regOp f code <;> rfl

theorem perform_withoutTracer (c : Command) : (withoutTracer s).perform c = withoutTracer (s.perform c) := by
  cases c with
  | run => rfl
  | reset => rfl
  | save accepts => rfl
  | load source => exact cmdLoad_withoutTracer s source
  | writeMovToReg r imm => exact encoderWrite_withoutTracer s _ _
  | writeMovToRam addr r => exact encoderWrite_withoutTracer s _ _
  | writeMovFromRam r addr => exact encoderWrite_withoutTracer s _ _
  | writeDumpreg => exact encoderWrite_withoutTracer s [] .dumpreg
  | writeAdd d src => exact encoderWrite_withoutTracer s _ _
  | writeSub d src => exact encoderWrite_withoutTracer s _ _
  | writeInc r => exact encoderWrite_withoutTracer s _ _
  | writeDec r => exact encoderWrite_withoutTracer s _ _
  | writeRet => exact encoderWrite_withoutTracer s [] .ret
  | get code => exact port_withoutTracer s (regCheck code) fun x => by rw [readReg_withoutTracer]
  | set code v => exact port_withoutTracer s (regCheck code) fun _ => rfl
  | increment code => exact port_regOp_withoutTracer s aluInc code
  | decrement code => exact port_regOp_withoutTracer s aluDec code
  | name code => exact port_withoutTracer s (regCheck code) fun _ => rfl
  | readByte addr => exact port_withoutTracer s (Memory.readByte s.cfg.cap s.mem addr) fun _ => rfl
  | writeByte addr v => exact port_withoutTracer s (Memory.writeByte s.cfg.cap s.mem addr v) fun _ => rfl
  | readWord addr => exact port_withoutTracer s (Memory.readWord s.cfg.cap s.mem addr) fun _ => rfl
  | writeWord addr v => exact port_withoutTracer s (Memory.writeWord s.cfg.cap s.mem addr v) fun _ => rfl

theorem serveHost_withoutTracer : (withoutTracer s).serveHost = withoutTracer s.serveHost := by
  rw [State.serveHost, State.serveHost, withoutTracer_commands]
  cases s.commands with
  | nil => rfl
  | cons c rest => exact perform_withoutTracer { s with commands := rest } c

end

end Sys2Proof.Machine

namespace Sys2Proof.Proofs
open Sys2Proof.Machine Sys2Proof.Claims

/-- Settles O44: fetch and host commands commute with `withoutTracer`, handlers up to the trace record of retirement. -/
theorem tracerChangesNothingButTrace : Obligations.TracerChangesNothingButTrace := by
  intro s t hstep
  obtain ⟨hcap, hcase⟩ := step_inv hstep
  have hcap' : (withoutTracer s).cfg.WF := hcap
  have hfetch := fetchInstr_withoutTracer s
  cases hcase with
  | served hidle => exact ⟨_, step_idle hcap' hidle, by rw [serveHost_withoutTracer, withoutTracer_idem]⟩
  | executed hrun i u _ hf he =>
    rw [hf] at hfetch
    obtain ⟨w, hw, heq⟩ := exec_withoutTracer u i he
    exact ⟨w, (step_running hcap' hrun).trans ((runInstr_of_instr hfetch).trans hw), heq⟩
  | stopped hrun e u hf =>
    rw [hf] at hfetch
    exact ⟨_, (step_running hcap' hrun).trans (runInstr_of_stop hfetch), rfl⟩
  | leftHalted hhalted => exact ⟨_, step_halted hcap' hhalted, rfl⟩

end Sys2Proof.Proofs
end

section
/-! Proofs about the host's commands: `run` (40_fde_loop.md R110), `save`, `load` and the two ports
(45_host_commands.md R183 to R186), the encoder writes (44_encoder.md), and every site of InvalidRegister
(60_exceptions.md R202). -/

namespace Sys2Proof.Machine
open Sys2Proof.Claims

/-! ## A command whose only effect is its reply -/

theorem sameCore_reply (s : State) (rest : List Command) (st : Status) (v : Value) :
    SameCore s ({ s with commands := rest }.reply st v) :=
  ⟨rfl, rfl, rfl, sameMemory_of_mem_eq rfl⟩

theorem step_eq_of_perform {s t : State} {c : Command} {rest : List Command} (hserving : Serving s c rest)
    (h : { s with commands := rest }.perform c = t) : step s = .next t :=
  (step_of_serving hserving).trans (congrArg _ h)

theorem step_of_reply {s : State} {c : Command} {rest : List Command} {st : Status} {v : Value}
    (hserving : Serving s c rest)
    (h : { s with commands := rest }.perform c = { s with commands := rest }.reply st v) :
    ∃ t, step s = .next t ∧ Replied s t rest st v ∧ SameCore s t ∧ SameStreams s t := by
  have hstep := step_eq_of_perform hserving h
  obtain ⟨-, hidle, -⟩ := hserving
  exact ⟨_, hstep, replied_reply hidle rest st v, sameCore_reply s rest st v, rfl, rfl⟩

/-! ## `save` and `load` (45_host_commands.md R183, R184) -/

/-- The cells outside a memory that lies inside CAP are blank. -/
theorem Memory.get_of_within {cap a : Nat} {m : Memory} (h : Memory.within cap m) (ha : cap ≤ a) :
    Memory.get m a = Memory.blank :=
  Memory.get_eq_blank fun c hc => Nat.ne_of_lt ((h c hc).trans_le ha)

/-- Filling a memory from its own bytes gives it back. -/
theorem Memory.ofCells_asBytes {cap : Nat} {m : Memory} (hwf : Memory.wf m) (hwithin : Memory.within cap m) :
    Memory.ofCells cap (fun a => (Memory.asBytes cap m).getD a Memory.blank) = m := by
  refine Memory.eq_of_get_eq (Memory.ofCells_wf cap _) hwf fun a => ?_
  rw [Memory.get_ofCells]
  split
  · next ha => rw [List.getD_eq_getElem?_getD, Memory.getElem?_asBytes m ha, Option.getD_some]
  · next ha => exact (Memory.get_of_within hwithin (Nat.le_of_not_lt ha)).symm

/-! ## The register port (45_host_commands.md R185) -/

section
variable (s : State) (x : Reg)

theorem cmdGet_codeOf : cmdGet (codeOf x) s = s.reply .ok (.word (s.readReg x)) := by
  rw [cmdGet, bind_of_ok (regCheck_codeOf x)]; rfl

theorem cmdSet_codeOf (v : Word) : cmdSet (codeOf x) v s = (s.writeReg x v).reply .ok .nothing := by
  rw [cmdSet, bind_of_ok (regCheck_codeOf x)]; rfl

theorem regOp_codeOf (f : Word → Word) : s.regOp f (codeOf x) = .ok (s.writeReg x (f (s.readReg x))) := by
  rw [State.regOp, bind_of_ok (regCheck_codeOf x)]; rfl

theorem cmdIncrement_codeOf :
    cmdIncrement (codeOf x) s = (s.writeReg x (s.readReg x + 1#16)).reply .ok .nothing := by
  rw [cmdIncrement, bind_of_ok (regOp_codeOf s x aluInc)]; rfl

theorem cmdDecrement_codeOf :
    cmdDecrement (codeOf x) s = (s.writeReg x (s.readReg x - 1#16)).reply .ok .nothing := by
  rw [cmdDecrement, bind_of_ok (regOp_codeOf s x aluDec)]; rfl

theorem cmdName_codeOf : cmdName (codeOf x) s = s.reply .ok (.text (regName x)) := by
  rw [cmdName, bind_of_ok (regCheck_codeOf x)]; rfl

end

/-- A command that writes one register and replies OK. -/
theorem step_of_writeReg {s : State} {c : Command} {rest : List Command} {x : Reg} {v : Word} (hserving : Serving s c rest)
    (h : { s with commands := rest }.perform c = ({ s with commands := rest }.writeReg x v).reply .ok .nothing) :
    ∃ t, step s = .next t ∧ Replied s t rest .ok .nothing ∧ t.readReg x = v ∧ OtherRegsSame x s t ∧
      SameMemory s t ∧ t.ip = s.ip ∧ SameStreams s t := by
  have hstep := step_eq_of_perform hserving h
  obtain ⟨-, hidle, -⟩ := hserving
  exact ⟨_, hstep, ⟨hidle, rfl, rfl, rfl⟩, (State.readReg_writeReg s x x v).trans (if_pos rfl), otherRegsSame_writeReg s x v,
    sameMemory_of_mem_eq rfl, rfl, rfl, rfl⟩

/-- The register port's operations check the code first. -/
theorem perform_of_invalid_code (s : State) {r : Byte} (h : 2 ≤ r.toNat) {v : Word} {c : Command}
    (hc : c ∈ [Command.get r, .set r v, .increment r, .decrement r, .name r]) :
    s.perform c = s.reply (.failed .invalidRegister) .nothing := by
  have hcheck := regCheck_of_two_le h
  have hop : ∀ f, s.regOp f r = .error .invalidRegister := fun f => bind_of_error hcheck _
  simp only [List.mem_cons, List.not_mem_nil, or_false] at hc
  rcases hc with rfl | rfl | rfl | rfl | rfl
  · rw [State.perform, cmdGet, bind_of_error hcheck, port_error]
  · rw [State.perform, cmdSet, bind_of_error hcheck, port_error]
  · rw [State.perform, cmdIncrement, bind_of_error (hop _), port_error]
  · rw [State.perform, cmdDecrement, bind_of_error (hop _), port_error]
  · rw [State.perform, cmdName, bind_of_error hcheck, port_error]

/-! ## The memory port (45_host_commands.md R186) -/

section
variable {s : State} {a : Nat}

theorem cmdReadByte_inside (h : a < s.cfg.cap) : cmdReadByte a s = s.reply .ok (.byte (s.byteAt a)) := by
  rw [cmdReadByte, bind_of_ok (Memory.readByte_eq_ok.2 ⟨h, rfl⟩)]; rfl

theorem cmdReadByte_outside (h : s.cfg.cap ≤ a) : cmdReadByte a s = s.reply (.failed .outOfBounds) .nothing := by
  rw [cmdReadByte, bind_of_error (Memory.readByte_eq_error.2 ⟨Nat.lt_succ_of_le h, rfl⟩)]; rfl

theorem cmdReadWord_inside (h : a + 2 ≤ s.cfg.cap) :
    cmdReadWord a s = s.reply .ok (.word (littleEndian (s.byteAt a) (s.byteAt (a + 1)))) := by
  rw [cmdReadWord, bind_of_ok (Memory.readWord_eq_ok.2 ⟨h, rfl⟩), littleEndian_eq_joinBytes]; rfl

theorem cmdReadWord_outside (h : s.cfg.cap < a + 2) : cmdReadWord a s = s.reply (.failed .outOfBounds) .nothing := by
  rw [cmdReadWord, bind_of_error (Memory.readWord_eq_error.2 ⟨h, rfl⟩)]; rfl

theorem cmdWriteByte_inside (v : Byte) (h : a < s.cfg.cap) :
    cmdWriteByte a v s = { s with mem := Memory.put s.mem a v }.reply .ok .nothing := by
  rw [cmdWriteByte, bind_of_ok (Memory.writeByte_eq_ok.2 ⟨h, rfl⟩)]; rfl

theorem cmdWriteByte_outside (v : Byte) (h : s.cfg.cap ≤ a) :
    cmdWriteByte a v s = s.reply (.failed .outOfBounds) .nothing := by
  rw [cmdWriteByte, bind_of_error (Memory.writeByte_eq_error.2 ⟨Nat.lt_succ_of_le h, rfl⟩)]; rfl

theorem cmdWriteWord_inside (w : Word) (h : a + 2 ≤ s.cfg.cap) :
    cmdWriteWord a w s = { s with mem := Memory.putBytes s.mem a [loByte w, hiByte w] }.reply .ok .nothing := by
  rw [cmdWriteWord, bind_of_ok (Memory.writeWord_eq_ok.2 ⟨h, rfl⟩)]; rfl

theorem cmdWriteWord_outside (w : Word) (h : s.cfg.cap < a + 2) :
    cmdWriteWord a w s = s.reply (.failed .outOfBounds) .nothing := by
  rw [cmdWriteWord, bind_of_error (Memory.writeWord_eq_error.2 ⟨h, rfl⟩)]; rfl

end

/-! ## Decoding what an encoder write put at the cursor (44_encoder.md section 1) -/

/-- An encoder write that replies OK had valid codes and room. -/
theorem encoderWrite_of_ok {s : State} {codes : List Byte} {i : Instr}
    (h : (s.encoderWrite codes i).replies = s.replies ++ [⟨.ok, .nothing⟩]) :
    AllValid codes ∧ s.ip.toNat + i.length ≤ s.cfg.cap := by
  rcases encoderWrite_cases s codes i with ⟨hvalid, hroom, -⟩ | ⟨-, -, hfull⟩ | ⟨-, hinvalid⟩
  · exact ⟨all_validCode_iff.1 hvalid, hroom⟩
  · simp [hfull] at h
  · simp [hinvalid] at h

theorem cells_of_putBytes {s t : State} {a : Nat} {bytes : List Byte} (hwf : Memory.wf s.mem)
    (hmem : t.mem = Memory.putBytes s.mem a bytes) : t.cells a bytes.length = bytes := by
  refine List.ext_getElem (by simp [State.cells]) fun k hk hk' => ?_
  simp only [State.cells, List.getElem_map, List.getElem_range, State.byteAt, hmem]
  exact Memory.get_putBytes hwf a hk'

theorem decode_of_cells {s : State} {i : Instr} (hroom : s.ip.toNat + (encode i).length ≤ s.cfg.cap)
    (hcells : s.cells s.ip.toNat (encode i).length = encode i) : ∃ tail, decode s.bytesAtIp = .instr i tail := by
  obtain ⟨tail, hbytes⟩ := bytesAtIp_eq_cells_append hroom
  exact ⟨tail, by rw [hbytes, hcells, decode_encode_append]⟩

/-- What an encoder write that replied OK put at the cursor decodes to its instruction. -/
theorem decode_of_encoderWrite {s t : State} {codes : List Byte} {i : Instr} (hwf : Memory.wf s.mem)
    (ht : s.encoderWrite codes i = t) (hok : t.replies = s.replies ++ [⟨.ok, .nothing⟩]) :
    ∃ tail, decode { t with ip := s.ip }.bytesAtIp = .instr i tail := by
  obtain ⟨hvalid, hroom⟩ := encoderWrite_of_ok (ht ▸ hok)
  obtain rfl := (encoderWrite_of_room hvalid hroom).symm.trans ht
  rw [← length_encode] at hroom
  exact decode_of_cells hroom (cells_of_putBytes hwf rfl)

@[simp] theorem lowNibble_codeOf (x : Reg) : lowNibble (codeOf x) = nibbleOf x := by
  cases x <;> rfl

end Sys2Proof.Machine

namespace Sys2Proof.Proofs
open Sys2Proof.Machine Sys2Proof.Claims

/-- Settles O46: the idle core serves the head of an empty list. -/
theorem idleCoreWaitsForTheHost : Obligations.IdleCoreWaitsForTheHost := fun s hcap hidle hnone => by
  rw [step_idle hcap hidle, State.serveHost, hnone]

/-- Settles O47: serving `run` is `startRun`. -/
theorem runStartsAtAddressZero : Obligations.RunStartsAtAddressZero :=
  fun _ _ hserving => step_of_serving hserving

/-- Settles O49: a sink takes every cell or a proper beginning of them, and `save` only replies. -/
theorem saveSendsTheCellsAndChangesNothing : Obligations.SaveSendsTheCellsAndChangesNothing := by
  intro s accepts rest hserving
  have ⟨_, hidle, _⟩ := hserving
  by_cases hfull : ∀ k, accepts = some k → s.cfg.cap ≤ k
  · have hstep := step_eq_of_perform hserving (cmdSave_full hfull)
    refine ⟨_, Memory.asBytes s.cfg.cap s.mem, hstep, sameCore_reply s rest _ _, ⟨rfl, rfl⟩, rfl, fun a ha => ?_,
      fun _ => ⟨Memory.length_asBytes _ _, replied_reply hidle rest _ _⟩,
      fun k hk hlt => absurd (hfull k hk) (Nat.not_le.2 hlt)⟩
    rw [Memory.length_asBytes] at ha
    exact Memory.getElem?_asBytes s.mem ha
  · push Not at hfull
    obtain ⟨k, rfl, hk⟩ := hfull
    have hlength : ((Memory.asBytes s.cfg.cap s.mem).take k).length = k := by
      rw [List.length_take, Memory.length_asBytes, Nat.min_eq_left hk.le]
    have hstep := step_eq_of_perform hserving (cmdSave_short hk)
    refine ⟨_, (Memory.asBytes s.cfg.cap s.mem).take k, hstep, sameCore_reply s rest _ _, ⟨rfl, rfl⟩, rfl, fun a ha => ?_,
      fun hall => absurd (hall k rfl) (Nat.not_le.2 hk), ?_⟩
    · rw [hlength] at ha
      rw [List.getElem?_take_of_lt ha]
      exact Memory.getElem?_asBytes s.mem (ha.trans hk)
    · rintro _ ⟨rfl⟩ -
      exact ⟨hlength, replied_reply hidle rest _ _⟩

/-- Settles O50: `load` resets the core and then fills memory from a source that is long enough, or fails. -/
theorem loadResetsAndReadsTheSource : Obligations.LoadResetsAndReadsTheSource := by
  intro s source rest hserving
  by_cases hfull : s.cfg.cap ≤ source.length
  · refine ⟨_, step_eq_of_perform hserving (cmdLoad_full hfull), rfl, rfl, rfl, ⟨rfl, rfl⟩,
      fun _ => ⟨⟨rfl, rfl, rfl, rfl⟩, fun a ha => ?_⟩, fun hshort => absurd hfull (Nat.not_le.2 hshort)⟩
    have hlt := ha.trans_le hfull
    refine (List.getElem?_eq_getElem hlt).trans (congrArg some ?_)
    refine .trans ?_ (Memory.get_ofCells s.cfg.cap _ a).symm
    rw [if_pos ha, List.getD_eq_getElem source _ hlt]
  · have hshort := Nat.lt_of_not_le hfull
    exact ⟨_, step_eq_of_perform hserving (cmdLoad_short hshort), rfl, rfl, rfl, ⟨rfl, rfl⟩,
      fun hfull' => absurd hfull' hfull, fun _ => ⟨rfl, rfl, rfl, rfl⟩⟩

/-- Settles O51: the bytes sent are the cells in order, and a memory filled from them is the one they came from. -/
theorem saveThenLoadRestoresMemory : Obligations.SaveThenLoadRestoresMemory := by
  intro s t s' t' rest rest' bytes hsave hstep hreplies hload hcap hstep'
  have hsaved := step_eq_of_perform hsave (cmdSave_full nofun)
  obtain rfl : { s with commands := rest }.reply .ok (.bytes (Memory.asBytes s.cfg.cap s.mem)) = t := by
    rw [hsaved] at hstep; cases hstep; rfl
  obtain rfl : Memory.asBytes s.cfg.cap s.mem = bytes := by simpa using hreplies
  have hloaded := step_eq_of_perform hload
    (cmdLoad_full (by rw [Memory.length_asBytes]; exact hcap.le))
  rw [hloaded] at hstep'
  cases hstep'
  refine ⟨?_, rfl, rfl, rfl, rfl⟩
  obtain ⟨hinv, -⟩ := hsave
  show Memory.ofCells s'.cfg.cap _ = s.mem
  rw [hcap]
  exact Memory.ofCells_asBytes hinv.mem hinv.within

/-- Settles O53: both failing branches of an encoder write only reply, and the codes are checked first. -/
theorem failedEncoderWriteChangesNothing : Obligations.FailedEncoderWriteChangesNothing := by
  intro s c rest codes bytes hserving hrow hfails
  obtain ⟨i, hperform, hlength, -⟩ := exists_encoderWrite_of_encoderRow hrow
  by_cases hvalid : AllValid codes
  · have hfull := hfails.resolve_left (not_not.2 hvalid)
    rw [← hlength] at hfull
    obtain ⟨t, hstep, hreplied, hcore, hstreams⟩ :=
      step_of_reply hserving ((hperform _).trans (encoderWrite_of_no_room hvalid hfull))
    exact ⟨t, _, hstep, hreplied, hcore, hstreams, fun hinvalid => absurd hvalid hinvalid, fun _ => rfl⟩
  · obtain ⟨t, hstep, hreplied, hcore, hstreams⟩ :=
      step_of_reply hserving ((hperform _).trans (encoderWrite_of_invalid hvalid))
    exact ⟨t, _, hstep, hreplied, hcore, hstreams, fun _ => rfl, fun hvalid' => absurd hvalid' hvalid⟩

/-- Settles O54: each of the nine commands is the encoder write of its instruction. -/
theorem encoderWriteIsDecodedBack : Obligations.EncoderWriteIsDecodedBack := by
  intro s t c rest hserving hstep hok i hwrite
  obtain ⟨codes, hperform⟩ : ∃ codes, ∀ u : State, u.perform c = u.encoderWrite codes i := by
    rcases hwrite with ⟨r, imm, rfl, rfl⟩ | ⟨addr, r, rfl, rfl⟩ | ⟨r, addr, rfl, rfl⟩ | ⟨rfl, rfl⟩ | ⟨d, src, rfl, rfl⟩ |
      ⟨d, src, rfl, rfl⟩ | ⟨r, rfl, rfl⟩ | ⟨r, rfl, rfl⟩ | ⟨rfl, rfl⟩
    case inr.inr.inr.inl | inr.inr.inr.inr.inr.inr.inr.inr => exact ⟨[], fun _ => rfl⟩
    case inr.inr.inr.inr.inl => exact ⟨_, fun u => by rw [State.perform, cmdWriteAdd, lowNibble_codeOf, lowNibble_codeOf]⟩
    case inr.inr.inr.inr.inr.inl =>
      exact ⟨_, fun u => by rw [State.perform, cmdWriteSub, lowNibble_codeOf, lowNibble_codeOf]⟩
    all_goals exact ⟨_, fun _ => rfl⟩
  rw [step_of_serving hserving, hperform] at hstep
  injection hstep with ht
  obtain ⟨hinv, -⟩ := hserving
  exact decode_of_encoderWrite (s := { s with commands := rest }) hinv.mem ht hok

/-- Settles O29: each site checks the register codes before any effect. -/
theorem invalidRegisterCodesAreRefusedEverywhere : Obligations.InvalidRegisterCodesAreRefusedEverywhere := by
  refine ⟨fun s r hr w i hi => ?handlers, fun s d src hbad => ?pairs,
    fun s c rest codes bytes hserving hrow hinvalid => ?encoder, fun s c rest r v hserving hr hc => ?port⟩
  case handlers => exact execAborts_of_eq (exec_of_invalid_code s hr w hi)
  case pairs =>
    exact ⟨execAborts_of_eq (exec_of_invalid_nibble s hbad (by simp)),
      execAborts_of_eq (exec_of_invalid_nibble s hbad (by simp))⟩
  case encoder =>
    obtain ⟨i, hperform, -, -⟩ := exists_encoderWrite_of_encoderRow hrow
    exact step_of_reply hserving ((hperform _).trans (encoderWrite_of_invalid hinvalid))
  case port => exact step_of_reply hserving (perform_of_invalid_code _ hr hc)

/-- Settles O55: with a valid code each operation is one reply, or one register write and its reply. -/
theorem registerPortActsOnOneRegister : Obligations.RegisterPortActsOnOneRegister := by
  intro s x v rest
  refine ⟨fun hget => ?get, fun hset => ?set, fun hinc => ?increment, fun hdec => ?decrement, fun hname => ?name⟩
  case get => exact step_of_reply hget (cmdGet_codeOf _ x)
  case set => exact step_of_writeReg hset (cmdSet_codeOf _ x v)
  case increment =>
    obtain ⟨t, hstep, hreplied, hvalue, hframe⟩ := step_of_writeReg hinc (cmdIncrement_codeOf _ x)
    exact ⟨t, hstep, hreplied, hvalue ▸ BitVec.toNat_add _ _, hframe⟩
  case decrement =>
    obtain ⟨t, hstep, hreplied, hvalue, hframe⟩ := step_of_writeReg hdec (cmdDecrement_codeOf _ x)
    exact ⟨t, hstep, hreplied, hvalue ▸ toNat_sub_int _ _, hframe⟩
  case name =>
    have hstep := step_of_reply hname (cmdName_codeOf _ x)
    cases x <;> exact hstep

/-- Settles O56: inside memory each operation is the access primitive of its width, outside it only replies. -/
theorem memoryPortActsOnTheCells : Obligations.MemoryPortActsOnTheCells := by
  intro s addr v w rest
  refine ⟨fun hserving => ?readByte, fun hserving => ?readWord, fun hserving => ?writeByte, fun hserving => ?writeWord⟩
  case readByte =>
    rcases Nat.lt_or_ge addr s.cfg.cap with hin | hout
    · obtain ⟨t, hstep, hreplied, hcore, hstreams⟩ := step_of_reply hserving (cmdReadByte_inside hin)
      exact ⟨t, hstep, hcore, hstreams, fun _ => hreplied, fun hout => absurd hin (Nat.not_lt.2 hout)⟩
    · obtain ⟨t, hstep, hreplied, hcore, hstreams⟩ := step_of_reply hserving (cmdReadByte_outside hout)
      exact ⟨t, hstep, hcore, hstreams, fun hin => absurd hin (Nat.not_lt.2 hout), fun _ => hreplied⟩
  case readWord =>
    rcases Nat.lt_or_ge s.cfg.cap (addr + 2) with hout | hin
    · obtain ⟨t, hstep, hreplied, hcore, hstreams⟩ := step_of_reply hserving (cmdReadWord_outside hout)
      exact ⟨t, hstep, hcore, hstreams, fun hin => absurd hout (Nat.not_lt.2 hin), fun _ => hreplied⟩
    · obtain ⟨t, hstep, hreplied, hcore, hstreams⟩ := step_of_reply hserving (cmdReadWord_inside hin)
      exact ⟨t, hstep, hcore, hstreams, fun _ => hreplied, fun hout => absurd hout (Nat.not_lt.2 hin)⟩
  case writeByte =>
    have ⟨hinv, hidle, _⟩ := hserving
    rcases Nat.lt_or_ge addr s.cfg.cap with hin | hout
    · refine ⟨_, step_eq_of_perform hserving (cmdWriteByte_inside v hin), fun a ha => ?_, rfl, rfl, rfl, ⟨rfl, rfl⟩,
        fun _ => ⟨⟨hidle, rfl, rfl, rfl⟩, Memory.get_put_self hinv.mem addr v⟩,
        fun hout => absurd hin (Nat.not_lt.2 hout)⟩
      exact Memory.get_put_ne s.mem v (by omega)
    · obtain ⟨t, hstep, hreplied, ⟨ha, hb, hip, hmem⟩, hstreams⟩ := step_of_reply hserving (cmdWriteByte_outside v hout)
      exact ⟨t, hstep, fun a _ => hmem a, ha, hb, hip, hstreams, fun hin => absurd hin (Nat.not_lt.2 hout),
        fun _ => ⟨hreplied, hmem⟩⟩
  case writeWord =>
    have ⟨hinv, hidle, _⟩ := hserving
    rcases Nat.lt_or_ge s.cfg.cap (addr + 2) with hout | hin
    · obtain ⟨t, hstep, hreplied, ⟨ha, hb, hip, hmem⟩, hstreams⟩ := step_of_reply hserving (cmdWriteWord_outside w hout)
      exact ⟨t, hstep, fun a _ => hmem a, ha, hb, hip, hstreams, fun hin => absurd hout (Nat.not_lt.2 hin),
        fun _ => ⟨hreplied, hmem⟩⟩
    · exact ⟨_, step_eq_of_perform hserving (cmdWriteWord_inside w hin),
        fun _ ha => Memory.get_putBytes_ne s.mem [loByte w, hiByte w] ha, rfl, rfl, rfl, ⟨rfl, rfl⟩,
        fun _ => ⟨⟨hidle, rfl, rfl, rfl⟩, Memory.get_putWord_low hinv.mem addr w,
          Memory.get_putWord_high hinv.mem addr w⟩,
        fun hout => absurd hout (Nat.not_lt.2 hin)⟩

end Sys2Proof.Proofs
end
